-- ==== Sys2Proof/Word.lean ====
section
/-!
DEFINITION. The machine's basic words: Word (32 bits, 00_scope.md R6, R9), Byte (the unit of the two
byte streams, R190, R193), register index (3 bits, R6) and the 25-bit immediate (R6).
-/

namespace Sys2Proof

/-- "32-bit unsigned integer; the unit of memory and instruction encoding" (R6, R13). -/
abbrev Word := BitVec 32

/-- A byte of the input stream, the output stream or the program image (R35, R36, R273). -/
abbrev Byte := BitVec 8

/-- A register index: every 3-bit value names a register (R20, R22). -/
abbrev RegIdx := BitVec 3

/-- The immediate of LOADV: 25 bits (R99, R108). -/
abbrev Imm25 := BitVec 25

end Sys2Proof
end

