-- ==== Sys2Proof/Config.lean ====
section
/-!
DEFINITION. What 00_scope.md R7 leaves to the implementation, as plain data a model takes as an
argument, and the opaque constants that stand for values and choices no rule fixes.
-/

namespace Sys2Proof

/-- FREE_PICK of R7: which free identifier MAP reuses. `lifo` is the reading 90_conflicts.md C5 and
10_state.md R31 take; `anyChoice` is "any function from a non-empty free list to one of its
members", the opaque `Config.freePick` (log 4). -/
inductive FreePick where
  | lifo
  | anyChoice
deriving DecidableEq, Repr

/-- The parameters of R7. -/
structure Params where
  /-- MAX_SEGMENTS: number of segment slots, slot 0 included (1 to 2^32). -/
  maxSegments : Nat
  /-- MAX_WORDS: words of segment storage over all live segments; `none` is unbounded. -/
  maxWords : Option Nat
  /-- IMAGE_WORDS_MAX: greatest length of the program image (at most 2^32 - 1). -/
  imageWordsMax : Nat
  /-- FREE_PICK. -/
  freePick : FreePick
deriving DecidableEq, Repr

/-- The ranges R7 gives the parameters. -/
abbrev Params.valid (p : Params) : Prop :=
  1 ≤ p.maxSegments ∧ p.maxSegments ≤ 2 ^ 32 ∧ p.imageWordsMax ≤ 2 ^ 32 - 1

/-- R7, last column: "the document's idealised machine" (log 3). -/
def Params.idealised : Params where
  maxSegments := 2 ^ 32
  maxWords := none
  imageWordsMax := 2 ^ 32 - 1
  freePick := .lifo

/-- FREE VALUE (log 4). An arbitrary choice function on the free list: the position of the
identifier to reuse, taken modulo the list's length. -/
opaque Config.freePick : List Nat → Nat

/-- FREE VALUE (log 15). What the extractor block shows on `field` when `range_err` is 1: "not
specified" (45_hw_blocks.md R206). -/
opaque Config.extractorField : Word → Nat → Nat → Word

/-- FREE VALUE (log 15). What the ALU block shows on `y` when `div0` is 1: "not used"
(45_hw_blocks.md R208). -/
opaque Config.aluUnused : Word → Word

/-- FREE VALUE (log 15). What the segment indexer drives on `rdata` when the command delivers no Word:
45_hw_blocks.md R212 gives `rdata` a meaning for READ, FETCH and MAP only. -/
opaque Config.undrivenData : Word

/-- The input ports of the blocks that some opcode or command does not use (45_hw_blocks.md R205, R210,
R212). -/
inductive InPort where
  | ra1
  | ra2
  | wa
  | wd
  | newPc
  | sid
  | off
  | wdata
deriving DecidableEq, Repr

/-- FREE VALUE (log 23). What a register-index port carries, in a state of type `σ`, while R205 calls it
"none" for the opcode. -/
opaque Config.undrivenIndex {σ : Type} : InPort → σ → RegIdx

/-- FREE VALUE (log 23). What a 32-bit input port carries, in a state of type `σ`, while the opcode or
the command does not use it (R205, R210, R212). -/
opaque Config.undrivenWord {σ : Type} : InPort → σ → Word

/-- FREE VALUE (log 22). What the wires of `fault_pc` carry in a state that is not faulted: R218 says what
they mean for a faulting instruction only. -/
opaque Config.idleFaultPc {σ : Type} : σ → Word

/-- FREE VALUE (log 22). What the wires of `fault_info` carry in a state that is not faulted (R218). -/
opaque Config.idleFaultInfo {σ : Type} : σ → BitVec 64

/-- FREE VALUE (log 22). Whether the first value a cause of this code records is in the upper half of
`fault_info`; R218 gives the width and what is carried, not the order. -/
opaque Config.infoFirstHigh : Nat → Bool

/-- FREE VALUE (log 22). What a half of `fault_info` carries when the cause records no value for it, by
cause code, recorded values and half. -/
opaque Config.spareInfo : Nat → List Nat → Nat → Word

end Sys2Proof
end

