-- ==== Sys2Proof/Machine/State.lean ====
section
/-!
DEFINITION. The architectural state (10_state.md R41) as plain data, the causes of fatal conditions
(60_exceptions.md R241), the reasons a step has no next state, and the state after reset.
-/

namespace Sys2Proof.Machine

/-- A Word at an offset of a segment. Memory's unit is the Word: there is no byte address
(20_memory.md R50, R60; log 1). -/
abbrev Cell := Nat × Word

/-- A live segment: its length in Words and the offsets that hold a non-zero Word, in rising order.
An offset below the length that is not listed holds 0 (R29, R51; log 2). -/
structure Segment where
  len : Nat
  cells : List Cell
deriving DecidableEq, Repr

/-- The memory state (R29, R31, R32): `segs` lists the live segments by identifier, in rising order;
`free` the reusable identifiers, most recently unmapped last; `nextId` the counter `next_id`. -/
structure Memory where
  segs : List (Nat × Segment)
  free : List Nat
  nextId : Nat
deriving DecidableEq, Repr

/-- The fatal causes with the `info` each records (R241). -/
inductive Cause where
  /-- `pc >= len(0)` at the start of a step (R121, R242). -/
  | pcOutOfBounds (pc : Word)
  /-- Opcode 14 or 15 (R123, R243). -/
  | invalidOpcode (pc : Word) (w : Word)
  /-- A reference to an identifier that is not live; LOADP has no offset (R244, R53, R55). -/
  | unmappedSegment (s : Word) (o : Option Word)
  /-- An offset at or beyond the length of a live segment (R244, R53). -/
  | offsetOutOfBounds (s o : Word)
  /-- DIV with a zero divisor; records the dividend (R245). -/
  | divideByZero (dividend : Word)
  /-- UNMAP of segment 0 (R246). -/
  | badUnmapZero
  /-- UNMAP of an identifier that is not live (R246). -/
  | badUnmapNotLive (s : Word)
  /-- OUT of a value above 255 (R247). -/
  | outputOutOfRange (v : Word)
  /-- A capacity of R7 exceeded by MAP or LOADP; records the requested size in Words (R248). -/
  | resourceExhausted (size : Nat)
  /-- The loader rejected the image; before the first step (R249, R273). -/
  | loaderError
  /-- `extract` called with `width + lsb > 32`; never by the core (R91, R249). -/
  | bitfieldRange (width lsb : Nat)
deriving DecidableEq, Repr

/-- The run status (R28). `faulted` holds the cause with its info, and the offset in segment 0 of
the faulting instruction (45_hw_blocks.md R218; D13). -/
inductive RunStatus where
  | running
  | halted
  | faulted (cause : Cause) (faultPc : Word)
deriving DecidableEq, Repr

/-- The input stream as the core sees it (R35, R193): the bytes that have arrived and are unread,
whether end-of-stream follows them, and how many bytes the core has consumed (R197, R200).
`pending = []` with `ended = false` is "the next byte has not arrived yet" (log 7). -/
structure InStream where
  pending : List Byte
  ended : Bool
  consumed : Nat
deriving DecidableEq, Repr

/-- The whole state (R41), and the model's own `cfg`: the parameters of R7, which no instruction
changes (log 3). -/
structure State where
  /-- `x[0]` .. `x[7]` (R20). -/
  regs : Vector Word 8
  /-- The program counter: a Word offset into segment 0 (R24). -/
  pc : Word
  /-- Run status, in place of the Boolean `halted` and a fault record (R27, R28). -/
  status : RunStatus
  /-- `seg`, `free`, `next_id` (R29, R31, R32). -/
  mem : Memory
  /-- `in` (R35). -/
  input : InStream
  /-- `out` (R36). -/
  out : List Byte
  /-- The parameters of R7. -/
  cfg : Params
deriving DecidableEq, Repr

/-- Why a state has no step. Both are raised by `step` alone, never by an instruction, and both are
SAFE: the spec gives a terminal state no step (40_execution_step.md R120, U8; log 8). -/
inductive Fault where
  /-- `step` on a state whose run status is `Halted`. Safe: R120. -/
  | runHalted
  /-- `step` on a state whose run status is `Faulted`; carries what it recorded. Safe: R120. -/
  | runFaulted (cause : Cause) (faultPc : Word)
deriving DecidableEq, Repr

/-- Why an instruction has no meaning in the model. -/
inductive Refusal where
  /-- Raised by `exec` for an instruction not modelled yet. Safe. No arm raises it: every
  instruction has its meaning. -/
  | notModelled (mnemonic : String)
deriving DecidableEq, Repr

/-- The machine right after reset (R41, R270), with the empty program image (log 5), the empty input
stream (log 6) and the idealised parameters (log 3). `State.bootWords` and `State.boot` give the
reset state for any image, input and parameters. -/
def State.reset : State where
  regs := Vector.replicate 8 0
  pc := 0
  status := .running
  mem := { segs := [(0, { len := 0, cells := [] })], free := [], nextId := 1 }
  input := { pending := [], ended := true, consumed := 0 }
  out := []
  cfg := Params.idealised

end Sys2Proof.Machine
end

