-- ==== Sys2Proof/Machine/Ops.lean ====
section
/-!
DEFINITION. The named operations over memory, registers, streams and the run status that the
instructions are written with: the five operations of the segment manager (20_memory.md R51 to R55),
register read and write (10_state.md R22), advancing the pc (40_execution_step.md R124), taking a
fatal condition (60_exceptions.md R240), and the two stream primitives (44_io.md R190, R193).
-/

namespace Sys2Proof.Machine

/-! ## Tables: lists of (key, value) with keys in rising order -/

/-- The value at a key. -/
def tableGet {α : Type} : List (Nat × α) → Nat → Option α
  | [], _ => none
  | (k, v) :: rest, i => if k = i then some v else tableGet rest i

/-- Set the value at a key, keeping the keys in rising order. -/
def tablePut {α : Type} : List (Nat × α) → Nat → α → List (Nat × α)
  | [], i, v => [(i, v)]
  | (k, w) :: rest, i, v =>
    if i < k then (i, v) :: (k, w) :: rest
    else if i = k then (i, v) :: rest
    else (k, w) :: tablePut rest i v

/-- Remove a key. -/
def tableDel {α : Type} : List (Nat × α) → Nat → List (Nat × α)
  | [], _ => []
  | (k, v) :: rest, i => if k = i then tableDel rest i else (k, v) :: tableDel rest i

/-- Keys strictly rise. -/
abbrev tableRising {α : Type} (t : List (Nat × α)) : Prop :=
  t.Pairwise (fun x y => x.1 < y.1)

/-! ## One segment -/

/-- A zero-filled segment of `n` Words (R51). -/
def Segment.zeros (n : Nat) : Segment := { len := n, cells := [] }

/-- The Word at an offset; 0 where none is listed. The bound is the caller's check. -/
def Segment.read (g : Segment) (o : Nat) : Word := (tableGet g.cells o).getD 0

/-- Set the Word at an offset; a zero Word is not listed. -/
def Segment.write (g : Segment) (o : Nat) (v : Word) : Segment :=
  { g with cells := if v = 0 then tableDel g.cells o else tablePut g.cells o v }

/-- The cells of Words laid out from offset `i` on, less the zero Words. -/
def cellsFrom : Nat → List Word → List Cell
  | _, [] => []
  | i, w :: ws => if w = 0 then cellsFrom (i + 1) ws else (i, w) :: cellsFrom (i + 1) ws

/-- The segment that holds the given Words from offset 0 (R272). -/
def Segment.ofWords (ws : List Word) : Segment := { len := ws.length, cells := cellsFrom 0 ws }

/-- The canonical form of a segment: offsets rise, lie below the length, and list no zero Word. -/
abbrev Segment.wf (g : Segment) : Prop :=
  tableRising g.cells ∧ ∀ c ∈ g.cells, c.1 < g.len ∧ c.2 ≠ 0

/-! ## The segment manager -/

/-- `seg[s]`, if `s` is live (R29). -/
def Memory.find (m : Memory) (s : Word) : Option Segment := tableGet m.segs s.toNat

/-- `live(s)` (R29). -/
def Memory.live (m : Memory) (s : Word) : Bool := (m.find s).isSome

/-- `len(s)`; 0 for an identifier that is not live. -/
def Memory.lenOf (m : Memory) (s : Word) : Nat :=
  match m.find s with
  | some g => g.len
  | none => 0

/-- The Word at `(s, o)`, if there is one: the model's read of one unit of memory. -/
def Memory.peek (m : Memory) (s o : Word) : Option Word :=
  match m.find s with
  | some g => if o.toNat < g.len then some (g.read o.toNat) else none
  | none => none

/-- `words_in_use`: the lengths of all live segments, summed (R51). -/
def Memory.wordsInUse (m : Memory) : Nat := (m.segs.map fun e => e.2.len).sum

/-- The canonical form of memory: identifiers rise, and every segment is in canonical form. -/
abbrev Memory.wf (m : Memory) : Prop :=
  tableRising m.segs ∧ ∀ e ∈ m.segs, e.2.wf

/-- Whether a total of `total` Words would exceed MAX_WORDS (R7). -/
def overCapacity (cfg : Params) (total : Nat) : Bool :=
  match cfg.maxWords with
  | none => false
  | some k => decide (k < total)

/-- FREE_PICK: the free identifier to reuse, if any is free. `lifo` takes the last element, the one
unmapped most recently (R31, R51); `anyChoice` whichever the opaque choice function says (log 4). -/
def pickFree (policy : FreePick) (free : List Nat) : Option Nat :=
  match policy with
  | .lifo => free.getLast?
  | .anyChoice => free[Config.freePick free % free.length]?

/-- The identifier `Map` would issue and the counter after it: a free one if there is one, else
`next_id`, unless MAX_SEGMENTS identifiers exist already (R51). -/
def Memory.chooseId (cfg : Params) (m : Memory) : Option (Nat × Nat) :=
  match pickFree cfg.freePick m.free with
  | some s => some (s, m.nextId)
  | none => if m.nextId = cfg.maxSegments then none else some (m.nextId, m.nextId + 1)

/-- `Map(size)` (R51): the new memory and the identifier issued, or ResourceExhausted. Both checks
precede every change. -/
def Memory.map (cfg : Params) (m : Memory) (size : Word) : Except Cause (Memory × Nat) :=
  match m.chooseId cfg with
  | none => .error (.resourceExhausted size.toNat)
  | some (s, next) =>
    if overCapacity cfg (m.wordsInUse + size.toNat) then
      .error (.resourceExhausted size.toNat)
    else
      .ok ({ segs := tablePut m.segs s (Segment.zeros size.toNat)
             free := m.free.filter fun t => t ≠ s
             nextId := next }, s)

/-- `Unmap(s)` (R52). -/
def Memory.unmap (m : Memory) (s : Word) : Except Cause Memory :=
  if s = 0 then .error .badUnmapZero
  else if m.live s then
    .ok { m with segs := tableDel m.segs s.toNat, free := m.free ++ [s.toNat] }
  else .error (.badUnmapNotLive s)

/-- `MemRead((s, o), 1)` (R53): liveness first, then the bound. -/
def Memory.load (m : Memory) (s o : Word) : Except Cause Word :=
  match m.find s with
  | none => .error (.unmappedSegment s (some o))
  | some g => if o.toNat < g.len then .ok (g.read o.toNat) else .error (.offsetOutOfBounds s o)

/-- `MemWrite((s, o), 1, v)` (R54): same conditions; exactly one Word changes. -/
def Memory.store (m : Memory) (s o v : Word) : Except Cause Memory :=
  match m.find s with
  | none => .error (.unmappedSegment s (some o))
  | some g =>
    if o.toNat < g.len then
      .ok { m with segs := tablePut m.segs s.toNat (g.write o.toNat v) }
    else .error (.offsetOutOfBounds s o)

/-- `ReplaceSegmentZero(s)` (R55): nothing when `s = 0`; else segment 0 becomes a copy of segment
`s`. -/
def Memory.replaceZero (cfg : Params) (m : Memory) (s : Word) : Except Cause Memory :=
  if s = 0 then .ok m
  else
    match m.find s with
    | none => .error (.unmappedSegment s none)
    | some g =>
      if overCapacity cfg (m.wordsInUse - m.lenOf 0 + g.len) then
        .error (.resourceExhausted g.len)
      else .ok { m with segs := tablePut m.segs 0 g }

/-! ## Registers, pc, memory and streams of a state -/

/-- `x[r]`. Every index is valid and no register is hardwired (R21, R22). -/
def State.reg (s : State) (r : RegIdx) : Word := s.regs[r.toNat]'r.isLt

/-- `x[r] <- v` (R22). -/
def State.setReg (s : State) (r : RegIdx) (v : Word) : State :=
  { s with regs := s.regs.set r.toNat v r.isLt }

/-- `pc <- t` (R24). -/
def State.setPc (s : State) (t : Word) : State := { s with pc := t }

/-- `pc <- pc + 1` (R124); it never wraps where a step reaches it (R131). -/
def State.advance (s : State) : State := s.setPc (s.pc + 1)

/-- Replace the memory state. -/
def State.setMem (s : State) (m : Memory) : State := { s with mem := m }

/-- Replace the input stream. -/
def State.setInput (s : State) (i : InStream) : State := { s with input := i }

/-- `Output(b)`: `out <- out ++ [b]` (R190). -/
def State.emit (s : State) (b : Byte) : State := { s with out := s.out ++ [b] }

/-- Replace the run status. -/
def State.setStatus (s : State) (r : RunStatus) : State := { s with status := r }

/-- What `Input()` answers (R193). -/
inductive InputAnswer where
  | byte (b : Byte) (rest : InStream)
  | endOfStream
  | notArrived
deriving DecidableEq, Repr

/-- `Input()` (R193): the next byte and the stream without it; or end-of-stream, which stays; or the
next byte has not arrived. -/
def InStream.take (i : InStream) : InputAnswer :=
  match i.pending with
  | b :: rest => .byte b { i with pending := rest, consumed := i.consumed + 1 }
  | [] => if i.ended then .endOfStream else .notArrived

/-! ## Fatal conditions -/

/-- TAKING AN EXCEPTION, the one shared operation: `raise <Cause>(info)`. The run status becomes
`Faulted`, recording the cause and the offset of the faulting instruction, and nothing else changes
(R240, R128, R253). There is no return from it: no instruction resumes a run (R254). -/
def State.raise (s : State) (c : Cause) : State := s.setStatus (.faulted c s.pc)

/-- An instruction's checks have been made: go on with `k`, or take the fatal condition in the
unchanged state (R127, R128). -/
def settle {α : Type} (s : State) (r : Except Cause α) (k : α → State) :
    Host.Outcome State Fault Refusal :=
  match r with
  | .ok x => .next (k x)
  | .error c => .next (s.raise c)

/-- Complete an instruction whose one effect is `x[r] <- v`, and advance. -/
def State.retireReg (s : State) (r : RegIdx) (v : Word) : State := (s.setReg r v).advance

end Sys2Proof.Machine
end

