-- ==== Sys2Proof/Machine/Flags.lean ====
section
/-!
DEFINITION. The machine has no status flags (10_state.md R37). The conditions its datapath computes
within one instruction, and nothing records, are here: the non-zero test of CMOV (45_hw_blocks.md
R209), the zero divisor (R208), the output range (R191) and the PC bound (R210).
-/

namespace Sys2Proof.Machine

/-- `x[C] != 0`, on all 32 bits (R140, R209). -/
def isNonzero (c : Word) : Bool := c != 0

/-- `div0`: the divisor is 0 (R143, R208). -/
def isZeroDivisor (c : Word) : Bool := c == 0

/-- `v > 255` (R191). -/
def isAboveByte (v : Word) : Bool := decide (255 < v.toNat)

/-- `pc >= len(0)` (R121). -/
def State.pcOutside (s : State) : Bool := decide (s.mem.lenOf 0 ≤ s.pc.toNat)

end Sys2Proof.Machine
end

