-- ==== Sys2Proof/Syntax.lean ====
section
/-!
DEFINITION. The instruction set UM-14 as syntax: one constructor per row of spec/opcode_table.json.
A constructor carries exactly the fields its operation uses (30_encoding.md R103, R106); the two
invalid rows carry the whole Word, because the fatal condition they raise records it (R123, R241).
-/

namespace Sys2Proof

/-- The instructions of 30_encoding.md R103, and the two invalid opcodes of R104. -/
inductive Instr where
  /-- Conditional Move, opcode 0 (R140). -/
  | cmov (a b c : RegIdx)
  /-- Segmented Load, opcode 1 (R160). -/
  | sload (a b c : RegIdx)
  /-- Segmented Store, opcode 2 (R161). -/
  | sstore (a b c : RegIdx)
  /-- Add, opcode 3 (R141). -/
  | add (a b c : RegIdx)
  /-- Multiply, opcode 4 (R142). -/
  | mul (a b c : RegIdx)
  /-- Divide, opcode 5 (R143). -/
  | div (a b c : RegIdx)
  /-- Bitwise NAND, opcode 6 (R144). -/
  | nand (a b c : RegIdx)
  /-- Halt, opcode 7 (R180). -/
  | halt
  /-- Map Segment, opcode 8 (R162). -/
  | map (b c : RegIdx)
  /-- Unmap Segment, opcode 9 (R163). -/
  | unmap (c : RegIdx)
  /-- Output, opcode 10 (R191). -/
  | out (c : RegIdx)
  /-- Input, opcode 11 (R194). -/
  | inp (c : RegIdx)
  /-- Load Program, opcode 12 (R181). -/
  | loadp (b c : RegIdx)
  /-- Load Value, opcode 13 (R145). -/
  | loadv (reg : RegIdx) (value : Imm25)
  /-- A Word whose opcode is 14 (R104); `w` is the whole Word. -/
  | invalid14 (w : Word)
  /-- A Word whose opcode is 15 (R104); `w` is the whole Word. -/
  | invalid15 (w : Word)
deriving DecidableEq, Repr

end Sys2Proof
end

