-- ==== Sys2Proof/WellFormed.lean ====
section
/-!
DEFINITION. Which terms of Instr stand for a Word. The types of the register and immediate fields
leave nothing to check there (10_state.md R22, 30_encoding.md R101); an invalid instruction must
carry a Word whose top four bits are its opcode (R104).
-/

namespace Sys2Proof

/-- The check, constructor by constructor. -/
def Instr.wellFormed : Instr → Bool
  | .cmov _ _ _ => true
  | .sload _ _ _ => true
  | .sstore _ _ _ => true
  | .add _ _ _ => true
  | .mul _ _ _ => true
  | .div _ _ _ => true
  | .nand _ _ _ => true
  | .halt => true
  | .map _ _ => true
  | .unmap _ => true
  | .out _ => true
  | .inp _ => true
  | .loadp _ _ => true
  | .loadv _ _ => true
  | .invalid14 w => w.toNat / 2 ^ 28 == 14
  | .invalid15 w => w.toNat / 2 ^ 28 == 15

/-- `i` stands for at least one Word. -/
abbrev WellFormed (i : Instr) : Prop := i.wellFormed = true

end Sys2Proof
end

