-- ==== Sys2Proof/Decode.lean ====
section
/-!
DEFINITION. The bit-field extractor (30_encoding.md R90), the decoder (R100 to R106), the encoder
(R112), and the byte order of the program image (20_memory.md R60), in which a decoder of bytes
reads an instruction.
-/

namespace Sys2Proof

/-- `extract(w, width, lsb)`, by integer arithmetic (R90); R91's precondition `width + lsb <= 32` is
the caller's, and the six callers below are R94's. -/
def extract (w : Word) (width lsb : Nat) : Word :=
  BitVec.ofNat 32 (w.toNat / 2 ^ lsb % 2 ^ width)

/-- `op` = `w[31:28]` (R94). -/
def fieldOp (w : Word) : BitVec 4 := (extract w 4 28).setWidth 4

/-- `A` = `w[8:6]` (R94). -/
def fieldA (w : Word) : RegIdx := (extract w 3 6).setWidth 3

/-- `B` = `w[5:3]` (R94). -/
def fieldB (w : Word) : RegIdx := (extract w 3 3).setWidth 3

/-- `C` = `w[2:0]` (R94). -/
def fieldC (w : Word) : RegIdx := (extract w 3 0).setWidth 3

/-- `reg` = `w[27:25]` (R94). -/
def fieldReg (w : Word) : RegIdx := (extract w 3 25).setWidth 3

/-- `value` = `w[24:0]` (R94). -/
def fieldValue (w : Word) : Imm25 := (extract w 25 0).setWidth 25

/-- The decoder's tagged result: `Standard{op,a,b,c}`, `LoadValue{reg,value}` or `Invalid` (R101). -/
inductive Fields where
  | standard (op : BitVec 4) (a b c : RegIdx)
  | loadValue (reg : RegIdx) (value : Imm25)
  | invalid
deriving DecidableEq, Repr

/-- Layout selection and field extraction (R100, R101). -/
def decodeFields (w : Word) : Fields :=
  if (fieldOp w).toNat ≤ 12 then
    .standard (fieldOp w) (fieldA w) (fieldB w) (fieldC w)
  else if (fieldOp w).toNat = 13 then
    .loadValue (fieldReg w) (fieldValue w)
  else
    .invalid

/-- The operation a decoded Standard layout selects, by `op` alone (R103), with the register fields
that operation uses (R106). Opcodes above 12 never come with this layout (R100). -/
def standardInstr (w : Word) (op : BitVec 4) (a b c : RegIdx) : Instr :=
  match op.toNat with
  | 0 => .cmov a b c
  | 1 => .sload a b c
  | 2 => .sstore a b c
  | 3 => .add a b c
  | 4 => .mul a b c
  | 5 => .div a b c
  | 6 => .nand a b c
  | 7 => .halt
  | 8 => .map b c
  | 9 => .unmap c
  | 10 => .out c
  | 11 => .inp c
  | 12 => .loadp b c
  | _ => .invalid15 w

/-- The instruction a Word stands for. Total: every Word decodes (R102), the Words of opcodes 14 and
15 to the invalid instruction of that opcode (R104). -/
def decode (w : Word) : Instr :=
  match decodeFields w with
  | .standard op a b c => standardInstr w op a b c
  | .loadValue r v => .loadv r v
  | .invalid => if (fieldOp w).toNat = 14 then .invalid14 w else .invalid15 w

/-- A Standard Word with bits 27:9 zero: `op * 2^28 + A * 64 + B * 8 + C` (R98, R112). -/
def standardWord (op : Nat) (a b c : RegIdx) : Word :=
  BitVec.ofNat 32 (op * 2 ^ 28 + a.toNat * 64 + b.toNat * 8 + c.toNat)

/-- The canonical encoding (R112): unused bits and unused register fields zero. An invalid
instruction is its own Word. -/
def encode : Instr → Word
  | .cmov a b c => standardWord 0 a b c
  | .sload a b c => standardWord 1 a b c
  | .sstore a b c => standardWord 2 a b c
  | .add a b c => standardWord 3 a b c
  | .mul a b c => standardWord 4 a b c
  | .div a b c => standardWord 5 a b c
  | .nand a b c => standardWord 6 a b c
  | .halt => standardWord 7 0 0 0
  | .map b c => standardWord 8 0 b c
  | .unmap c => standardWord 9 0 0 c
  | .out c => standardWord 10 0 0 c
  | .inp c => standardWord 11 0 0 c
  | .loadp b c => standardWord 12 0 b c
  | .loadv r v => BitVec.ofNat 32 (0xD0000000 + r.toNat * 2 ^ 25 + v.toNat)
  | .invalid14 w => w
  | .invalid15 w => w

/-- The bits of `w` that its operation ignores: bits 27:9 and unused register fields of the Standard
layout (R105, R106); none of LOADV (R99). An invalid Word is recorded whole (R123). -/
def ignoredMask (w : Word) : Word :=
  match (fieldOp w).toNat with
  | 7 => 0x0FFFFFFF
  | 8 => 0x0FFFFFC0
  | 9 => 0x0FFFFFF8
  | 10 => 0x0FFFFFF8
  | 11 => 0x0FFFFFF8
  | 12 => 0x0FFFFFC0
  | 13 => 0
  | 14 => 0
  | 15 => 0
  | _ => 0x0FFFFE00

/-- Four image bytes in stream order, the first the most significant (R60, R273). -/
def wordOfBytes (b0 b1 b2 b3 : Byte) : Word :=
  BitVec.ofNat 32 (b0.toNat * 2 ^ 24 + b1.toNat * 2 ^ 16 + b2.toNat * 2 ^ 8 + b3.toNat)

/-- The four image bytes of a Word (R60). -/
def bytesOfWord (w : Word) : List Byte :=
  [(extract w 8 24).setWidth 8, (extract w 8 16).setWidth 8,
   (extract w 8 8).setWidth 8, (extract w 8 0).setWidth 8]

/-- Why bytes hold no instruction. -/
inductive DecodeError where
  /-- Fewer than four bytes are left: the truncated trailing chunk of R273. -/
  | truncated
deriving DecidableEq, Repr

/-- The instruction at the front of a byte stream in the image's byte order, with the bytes after
it. -/
def decodeBytes : List Byte → Except DecodeError (Instr × List Byte)
  | b0 :: b1 :: b2 :: b3 :: rest => .ok (decode (wordOfBytes b0 b1 b2 b3), rest)
  | _ => .error .truncated

/-- The bytes of an instruction's canonical Word, in the image's byte order. -/
def encodeBytes (i : Instr) : List Byte := bytesOfWord (encode i)

/-- The Word whose low `nbits` bits are those of `w`, every bit above them 0. -/
def tableWord (nbits w : Nat) : Word := BitVec.ofNat 32 (w % 2 ^ nbits)

/-- The instruction the decoder reads from the opcode-table bits `w` (`nbits` of them): an
instruction is one Word (R97), so no row is wider than 32 bits. -/
def decodeTableWord (nbits w : Nat) : Option Instr :=
  if nbits ≤ 32 then some (decode (tableWord nbits w)) else none

end Sys2Proof
end

