-- ==== Sys2Proof/Machine/Operands.lean ====
section
/-!
DEFINITION. Operand forms (30_encoding.md R108, R109; 42_segment.md R164): the immediate of LOADV,
the (segment identifier, offset) pairs of SLOAD and SSTORE, and the Word IN delivers.
-/

namespace Sys2Proof.Machine

/-- `zext_32(value)`: the 25 bits as they stand, bits 31:25 zero (R108). -/
def immWord (v : Imm25) : Word := v.setWidth 32

/-- `zext_32` of an input byte: bits 31:8 zero (R194). -/
def byteWord (b : Byte) : Word := b.setWidth 32

/-- The end-of-stream value, all ones (R6, R194). -/
def endOfStreamWord : Word := 0xFFFFFFFF

/-- The low 8 bits of a register, as OUT emits them (R191). -/
def lowByte (v : Word) : Byte := v.setWidth 8

/-- The address SLOAD reads: `(x[B], x[C])`, taken as they are (R164). -/
def sloadAddress (b c : RegIdx) (s : State) : Word × Word := (s.reg b, s.reg c)

/-- The address SSTORE writes: `(x[A], x[B])`, taken as they are (R164). -/
def sstoreAddress (a b : RegIdx) (s : State) : Word × Word := (s.reg a, s.reg b)

end Sys2Proof.Machine
end

