-- ==== Sys2Proof/Machine/Alu.lean ====
section
/-!
DEFINITION. The register-to-register instructions (41_alu.md): CMOV, ADD, MUL, DIV, NAND, LOADV, and
the four operations of the ALU.
-/

namespace Sys2Proof.Machine

/-- `(b + c) mod 2^32` (R141, R146). -/
def aluAdd (b c : Word) : Word := BitVec.ofNat 32 (b.toNat + c.toNat)

/-- `(b * c) mod 2^32` (R142, R146). -/
def aluMul (b c : Word) : Word := BitVec.ofNat 32 (b.toNat * c.toNat)

/-- `floor(b / c)`, unsigned, for `c != 0` (R143, R148). -/
def aluDiv (b c : Word) : Word := BitVec.ofNat 32 (b.toNat / c.toNat)

/-- `~(b & c)` (R144). -/
def aluNand (b c : Word) : Word := ~~~(b &&& c)

/-- CMOV (R140). -/
def execCmov (a b c : RegIdx) (s : State) : Host.Outcome State Fault Refusal :=
  if isNonzero (s.reg c) then .next (s.retireReg a (s.reg b)) else .next s.advance

/-- ADD (R141). -/
def execAdd (a b c : RegIdx) (s : State) : Host.Outcome State Fault Refusal :=
  .next (s.retireReg a (aluAdd (s.reg b) (s.reg c)))

/-- MUL (R142). -/
def execMul (a b c : RegIdx) (s : State) : Host.Outcome State Fault Refusal :=
  .next (s.retireReg a (aluMul (s.reg b) (s.reg c)))

/-- DIV (R143). -/
def execDiv (a b c : RegIdx) (s : State) : Host.Outcome State Fault Refusal :=
  if isZeroDivisor (s.reg c) then .next (s.raise (.divideByZero (s.reg b)))
  else .next (s.retireReg a (aluDiv (s.reg b) (s.reg c)))

/-- NAND (R144). -/
def execNand (a b c : RegIdx) (s : State) : Host.Outcome State Fault Refusal :=
  .next (s.retireReg a (aluNand (s.reg b) (s.reg c)))

/-- LOADV (R145). -/
def execLoadv (r : RegIdx) (v : Imm25) (s : State) : Host.Outcome State Fault Refusal :=
  .next (s.retireReg r (immWord v))

end Sys2Proof.Machine
end

