-- ==== Sys2Proof/Machine/Control.lean ====
section
/-!
DEFINITION. The control instructions (43_control.md): HALT and LOADP; and the two invalid opcodes,
whose effect is the fatal condition InvalidOpcode (40_execution_step.md R123).
-/

namespace Sys2Proof.Machine

/-- HALT (R180): the run status becomes `Halted`. The pc is left at the address after HALT (R126),
where nothing can observe it (log 9). -/
def execHalt (s : State) : Host.Outcome State Fault Refusal :=
  .next (s.advance.setStatus .halted)

/-- LOADP (R181): both registers are read first; the new pc is not checked here (R183). -/
def execLoadp (b c : RegIdx) (s : State) : Host.Outcome State Fault Refusal :=
  settle s (s.mem.replaceZero s.cfg (s.reg b)) fun m => (s.setMem m).setPc (s.reg c)

/-- A Word of opcode 14: InvalidOpcode(pc, w) (R104, R123, R243). -/
def execInvalid14 (w : Word) (s : State) : Host.Outcome State Fault Refusal :=
  .next (s.raise (.invalidOpcode s.pc w))

/-- A Word of opcode 15: InvalidOpcode(pc, w) (R104, R123, R243). -/
def execInvalid15 (w : Word) (s : State) : Host.Outcome State Fault Refusal :=
  .next (s.raise (.invalidOpcode s.pc w))

end Sys2Proof.Machine
end

