-- ==== Sys2Proof/Machine/SegmentOps.lean ====
section
/-!
DEFINITION. The segment instructions (42_segment.md): SLOAD, SSTORE, MAP, UNMAP.
-/

namespace Sys2Proof.Machine

/-- SLOAD (R160). -/
def execSload (a b c : RegIdx) (s : State) : Host.Outcome State Fault Refusal :=
  settle s (s.mem.load (sloadAddress b c s).1 (sloadAddress b c s).2) fun v => s.retireReg a v

/-- SSTORE (R161): the identifier is in A, the offset in B, the value in C. -/
def execSstore (a b c : RegIdx) (s : State) : Host.Outcome State Fault Refusal :=
  settle s (s.mem.store (sstoreAddress a b s).1 (sstoreAddress a b s).2 (s.reg c)) fun m =>
    (s.setMem m).advance

/-- MAP (R162): the size is read before the identifier overwrites its register. -/
def execMap (b c : RegIdx) (s : State) : Host.Outcome State Fault Refusal :=
  settle s (s.mem.map s.cfg (s.reg c)) fun r => (s.setMem r.1).retireReg b (BitVec.ofNat 32 r.2)

/-- UNMAP (R163): no register changes. -/
def execUnmap (c : RegIdx) (s : State) : Host.Outcome State Fault Refusal :=
  settle s (s.mem.unmap (s.reg c)) fun m => (s.setMem m).advance

end Sys2Proof.Machine
end

