-- ==== Sys2Proof/Machine/StreamIo.lean ====
section
/-!
DEFINITION. The I/O instructions (44_io.md): OUT and IN.
-/

namespace Sys2Proof.Machine

/-- OUT (R191): never truncates; a value above 255 is fatal and emits nothing. -/
def execOut (c : RegIdx) (s : State) : Host.Outcome State Fault Refusal :=
  if isAboveByte (s.reg c) then .next (s.raise (.outputOutOfRange (s.reg c)))
  else .next (s.emit (lowByte (s.reg c))).advance

/-- IN (R194). While the next byte has not arrived the state does not change (R195): the step
answers the same state, and the instruction is still the one at the pc (log 7). -/
def execIn (c : RegIdx) (s : State) : Host.Outcome State Fault Refusal :=
  match s.input.take with
  | .byte b rest => .next ((s.setInput rest).retireReg c (byteWord b))
  | .endOfStream => .next (s.retireReg c endOfStreamWord)
  | .notArrived => .next s

end Sys2Proof.Machine
end

