-- ==== Sys2Proof/Machine/Fetch.lean ====
section
/-!
DEFINITION. The PC check, the fetch and the decode of a step (40_execution_step.md R121 to R123).
-/

namespace Sys2Proof.Machine

/-- `seg[0][pc]`, whatever instruction wrote it (R122, R68). -/
def State.fetchWord (s : State) : Word :=
  match s.mem.find 0 with
  | some g => g.read s.pc.toNat
  | none => 0

/-- The instruction at the pc (R123). -/
def State.fetch (s : State) : Instr := decode s.fetchWord

/-- A step from a `Running` state (R129): the PC check, then fetch, decode and dispatch. An invalid
opcode raises its fatal condition in its own arm of `exec`. -/
def State.stepRunning (s : State) : Host.Outcome State Fault Refusal :=
  if s.pcOutside then .next (s.raise (.pcOutOfBounds s.pc)) else exec s.fetch s

/-- Segment 0 with the Word `w` at the pc, long enough to be fetched from there. -/
def State.placeWord (s : State) (w : Word) : Segment :=
  match s.mem.find 0 with
  | some g => Segment.write { g with len := max g.len (s.pc.toNat + 1) } s.pc.toNat w
  | none => (Segment.zeros (s.pc.toNat + 1)).write s.pc.toNat w

end Sys2Proof.Machine
end

