-- ==== Sys2Proof/Machine/Step.lean ====
section
/-!
DEFINITION. The one transition of the machine (40_execution_step.md R120, R129), and the placing of
one instruction where the next step fetches.
-/

namespace Sys2Proof.Machine

/-- One step. A terminal state has none (R120, U8; log 8). -/
def step (s : State) : Host.Outcome State Fault Refusal :=
  match s.status with
  | .running => s.stepRunning
  | .halted => .fault .runHalted
  | .faulted c p => .fault (.runFaulted c p)

/-- `s` with the instruction of bits `w` (`nbits` of them) at the pc in segment 0, which is made long
enough to hold it, and `Running`, so that the very next step runs it. It stands for the loading of a
program, which happens outside the machine (R272; log 5). -/
def State.withFetchWord (s : State) (nbits w : Nat) : State :=
  (s.setMem { s.mem with segs := tablePut s.mem.segs 0 (s.placeWord (tableWord nbits w)) }).setStatus
    .running

end Sys2Proof.Machine
end

