-- ==== Sys2Proof/Machine/BitPacking.lean ====
section
/-!
DEFINITION. The general `extract` with its range fault (30_encoding.md R91), and the consumed
bit-packing contract (R96), which no instruction uses: only `get_unsigned`, which is `extract`, is in
the core. The definitions of `fits_*` and `set_*` are G1's (93_implementation_defined.md; log 14).
-/

namespace Sys2Proof.Machine

/-- `extract` on any arguments: `BitfieldRange` when `width + lsb > 32` (R91). -/
def extractOrFault (w : Word) (width lsb : Nat) : Except Cause Word :=
  if 32 < width + lsb then .error (.bitfieldRange width lsb) else .ok (extract w width lsb)

/-- `0 <= v < 2^width` (R96). -/
def fitsUnsigned (v : Int) (width : Nat) : Bool := decide (0 ≤ v ∧ v < 2 ^ width)

/-- `-2^(width-1) <= v < 2^(width-1)`, false for every `v` when `width = 0` (R96). -/
def fitsSigned (v : Int) (width : Nat) : Bool :=
  match width with
  | 0 => false
  | n + 1 => decide (-(2 ^ n) ≤ v ∧ v < 2 ^ n)

/-- `get_unsigned` is `extract` (R96). -/
def getUnsigned (w : Word) (width lsb : Nat) : Except Cause Word := extractOrFault w width lsb

/-- The two's complement reading of a `width`-bit value (R96, `sext` of R11). -/
def signedReading (v width : Nat) : Int :=
  match width with
  | 0 => 0
  | n + 1 => if v / 2 ^ n % 2 = 1 then (v : Int) - 2 ^ (n + 1) else v

/-- `get_signed`: the field, sign-extended from `width` bits (R96). -/
def getSigned (w : Word) (width lsb : Nat) : Except Cause Int :=
  match extractOrFault w width lsb with
  | .ok v => .ok (signedReading v.toNat width)
  | .error c => .error c

/-- Why `set_*` gives no word (R96): the range fault, or the value does not fit. -/
inductive PackFailure where
  | range (c : Cause)
  | doesNotFit
deriving DecidableEq, Repr

/-- `w` with the `width` bits at `lsb` replaced by the low `width` bits of `v` (R96). -/
def insertField (w : Word) (width lsb v : Nat) : Word :=
  BitVec.ofNat 32 (w.toNat - (extract w width lsb).toNat * 2 ^ lsb + v % 2 ^ width * 2 ^ lsb)

/-- `set_unsigned` (R96). -/
def setUnsigned (w : Word) (width lsb : Nat) (v : Int) : Except PackFailure Word :=
  if 32 < width + lsb then .error (.range (.bitfieldRange width lsb))
  else if fitsUnsigned v width then .ok (insertField w width lsb v.toNat)
  else .error .doesNotFit

/-- `set_signed`: the same with `v mod 2^width` (R96). -/
def setSigned (w : Word) (width lsb : Nat) (v : Int) : Except PackFailure Word :=
  if 32 < width + lsb then .error (.range (.bitfieldRange width lsb))
  else if fitsSigned v width then .ok (insertField w width lsb (v % 2 ^ width).toNat)
  else .error .doesNotFit

end Sys2Proof.Machine
end

