-- ==== Sys2Proof/Machine/FaultCodes.lean ====
section
/-!
DEFINITION. What the host sees of a run (60_exceptions.md R241, R257; 45_hw_blocks.md R218; 44_io.md
R197): cause codes, the document's diagnostics and classes, exit status, status outputs.
-/

namespace Sys2Proof.Machine

/-- The cause codes of R241. -/
def Cause.code : Cause → Nat
  | .pcOutOfBounds _ => 1
  | .invalidOpcode _ _ => 2
  | .unmappedSegment _ _ => 3
  | .offsetOutOfBounds _ _ => 4
  | .divideByZero _ => 5
  | .badUnmapZero => 6
  | .badUnmapNotLive _ => 7
  | .outputOutOfRange _ => 8
  | .resourceExhausted _ => 9
  | .loaderError => 10
  | .bitfieldRange _ _ => 11

/-- The document's six diagnostic names (R241). -/
inductive Diagnostic where
  | divideByZero
  | badUnmap
  | invalidOpcode
  | outOfBoundsAccess
  | pcOutOfBounds
  | outputOutOfRange
deriving DecidableEq, Repr

/-- The diagnostic of a cause, where the document has one (R241). -/
def Cause.diagnostic : Cause → Option Diagnostic
  | .pcOutOfBounds _ => some .pcOutOfBounds
  | .invalidOpcode _ _ => some .invalidOpcode
  | .unmappedSegment _ _ => some .outOfBoundsAccess
  | .offsetOutOfBounds _ _ => some .outOfBoundsAccess
  | .divideByZero _ => some .divideByZero
  | .badUnmapZero => some .badUnmap
  | .badUnmapNotLive _ => some .badUnmap
  | .outputOutOfRange _ => some .outputOutOfRange
  | .resourceExhausted _ => none
  | .loaderError => none
  | .bitfieldRange _ _ => none

/-- The document's five classes (R241). -/
inductive FaultClass where
  | loaderError
  | decodeError
  | boundsError
  | arithmeticError
  | protocolError
deriving DecidableEq, Repr

/-- The class of a cause, where the document has one (R241; `badUnmapNotLive` by 90_conflicts.md
C3). -/
def Cause.faultClass : Cause → Option FaultClass
  | .pcOutOfBounds _ => some .boundsError
  | .invalidOpcode _ _ => some .decodeError
  | .unmappedSegment _ _ => some .boundsError
  | .offsetOutOfBounds _ _ => some .boundsError
  | .divideByZero _ => some .arithmeticError
  | .badUnmapZero => some .protocolError
  | .badUnmapNotLive _ => some .boundsError
  | .outputOutOfRange _ => some .protocolError
  | .resourceExhausted _ => none
  | .loaderError => some .loaderError
  | .bitfieldRange _ _ => none

/-- The values a cause records, in the order R241 names them. -/
def Cause.info : Cause → List Nat
  | .pcOutOfBounds pc => [pc.toNat]
  | .invalidOpcode pc w => [pc.toNat, w.toNat]
  | .unmappedSegment s none => [s.toNat]
  | .unmappedSegment s (some o) => [s.toNat, o.toNat]
  | .offsetOutOfBounds s o => [s.toNat, o.toNat]
  | .divideByZero b => [b.toNat]
  | .badUnmapZero => []
  | .badUnmapNotLive s => [s.toNat]
  | .outputOutOfRange v => [v.toNat]
  | .resourceExhausted n => [n]
  | .loaderError => []
  | .bitfieldRange width lsb => [width, lsb]

/-- The exit status the host reports at the end of a run (R257); none while the run goes on. -/
def RunStatus.exitStatus : RunStatus → Option Nat
  | .running => none
  | .halted => some 0
  | .faulted c _ => some c.code

/-- The `k`-th value a cause records, as the Word on its half of `fault_info`; the free value
`Config.spareInfo` where it records none (log 22). -/
def Cause.infoWord (c : Cause) (k : Nat) : Word :=
  match c.info[k]? with
  | some v => BitVec.ofNat 32 v
  | none => Config.spareInfo c.code c.info k

/-- `fault_info` (R218): the `info` of the `raise`, at most two Words, one in each half of the 64 wires;
which half the first is in is the free value `Config.infoFirstHigh` (log 22). -/
def Cause.faultInfo (c : Cause) : BitVec 64 :=
  if Config.infoFirstHigh c.code then c.infoWord 0 ++ c.infoWord 1 else c.infoWord 1 ++ c.infoWord 0

/-- The status outputs of R218: wires, which carry a value in every state. -/
structure StatusOutputs where
  halted : Bool
  faulted : Bool
  cause : BitVec 4
  faultPc : Word
  faultInfo : BitVec 64
deriving DecidableEq, Repr

/-- The status outputs in a state (R218): `cause` is 0 while not faulted, and `fault_pc` and `fault_info`
are then free values (log 22). -/
def State.statusOutputs (s : State) : StatusOutputs :=
  match s.status with
  | .running =>
    { halted := false, faulted := false, cause := 0, faultPc := Config.idleFaultPc s,
      faultInfo := Config.idleFaultInfo s }
  | .halted =>
    { halted := true, faulted := false, cause := 0, faultPc := Config.idleFaultPc s,
      faultInfo := Config.idleFaultInfo s }
  | .faulted c p =>
    { halted := false, faulted := true, cause := BitVec.ofNat 4 c.code, faultPc := p,
      faultInfo := c.faultInfo }

/-- What is observable of the machine from outside (R197): the bytes emitted, the run status, and
how many bytes of `in` were consumed. -/
structure Observation where
  out : List Byte
  status : RunStatus
  consumed : Nat
deriving DecidableEq, Repr

/-- The observation of a state (R197). -/
def State.observed (s : State) : Observation :=
  { out := s.out, status := s.status, consumed := s.input.consumed }

end Sys2Proof.Machine
end

