-- ==== Sys2Proof/Machine/Blocks.lean ====
section
/-!
DEFINITION. The six blocks as hardware (45_hw_blocks.md R200 to R219), at the granularity of one
instruction: each block's ports and what it computes, and the control unit that composes them into
one commit (R217). Clock cycles and handshakes inside an instruction are left out (log 15). `step`
does not use this file; that the two agree is a statement of its own (R219).
-/

namespace Sys2Proof.Machine

/-! ## Register file (R202 to R204) -/

/-- The two read ports. -/
structure ReadPorts where
  rd1 : Word
  rd2 : Word
deriving DecidableEq, Repr

/-- Combinational read of both ports: the stored contents (R203, R204). -/
def regFileRead (x : Vector Word 8) (ra1 ra2 : RegIdx) : ReadPorts :=
  { rd1 := x[ra1.toNat]'ra1.isLt, rd2 := x[ra2.toNat]'ra2.isLt }

/-- The register file after a rising edge (R203). -/
def regFileClock (x : Vector Word 8) (rst we : Bool) (wa : RegIdx) (wd : Word) : Vector Word 8 :=
  if rst then Vector.replicate 8 0 else if we then x.set wa.toNat wd wa.isLt else x

/-! ## Bit-field extractor (R206) and instruction decoder (R207) -/

/-- The extractor's outputs. -/
structure ExtractorOut where
  field : Word
  rangeErr : Bool
deriving DecidableEq, Repr

/-- R206; `field` is not specified when `range_err` is 1 (log 15). -/
def extractorBlock (w : Word) (width lsb : BitVec 6) : ExtractorOut :=
  if 32 < width.toNat + lsb.toNat then
    { field := Config.extractorField w width.toNat lsb.toNat, rangeErr := true }
  else { field := extract w width.toNat lsb.toNat, rangeErr := false }

/-- The decoder's outputs: all six fields are always driven (R207). -/
structure DecoderOut where
  op : BitVec 4
  a : RegIdx
  b : RegIdx
  c : RegIdx
  reg : RegIdx
  value : Imm25
  isLoadValue : Bool
  invalid : Bool
deriving DecidableEq, Repr

/-- Six extractor instances with R94's constants (R201, R207). -/
def decoderBlock (instr : Word) : DecoderOut :=
  let op : BitVec 4 := (extractorBlock instr 4 28).field.setWidth 4
  { op := op
    a := (extractorBlock instr 3 6).field.setWidth 3
    b := (extractorBlock instr 3 3).field.setWidth 3
    c := (extractorBlock instr 3 0).field.setWidth 3
    reg := (extractorBlock instr 3 25).field.setWidth 3
    value := (extractorBlock instr 25 0).field.setWidth 25
    isLoadValue := op == 13
    invalid := op == 14 || op == 15 }

/-- The tagged result of R101, read off the decoder's outputs (R207). -/
def DecoderOut.tagged (d : DecoderOut) : Fields :=
  if d.invalid then .invalid
  else if d.isLoadValue then .loadValue d.reg d.value
  else .standard d.op d.a d.b d.c

/-! ## ALU (R208) -/

/-- `alu_op`. -/
inductive AluOp where
  | add
  | mul
  | div
  | nand
deriving DecidableEq, Repr

/-- The numbering of `alu_op` (R208). -/
def AluOp.number : AluOp → BitVec 2
  | .add => 0
  | .mul => 1
  | .div => 2
  | .nand => 3

/-- The ALU's outputs. -/
structure AluOut where
  y : Word
  div0 : Bool
deriving DecidableEq, Repr

/-- R208; `y` is not used when `div0` is 1 (log 15). -/
def aluBlock (op : AluOp) (p q : Word) : AluOut :=
  match op with
  | .add => { y := aluAdd p q, div0 := false }
  | .mul => { y := aluMul p q, div0 := false }
  | .div =>
    if isZeroDivisor q then { y := Config.aluUnused p, div0 := true }
    else { y := aluDiv p q, div0 := false }
  | .nand => { y := aluNand p q, div0 := false }

/-! ## PC and segment-0 fetch unit (R210) -/

/-- `pc_oob`: an unsigned comparison on 32 bits. -/
def pcOob (pc len0 : Word) : Bool := decide (len0.toNat ≤ pc.toNat)

/-- `pc` after a rising edge. -/
def pcClock (pc : Word) (rst commit loadPc : Bool) (newPc : Word) : Word :=
  if rst then 0 else if commit then (if loadPc then newPc else pc + 1) else pc

/-! ## Segment indexer with free-list arbiter (R212 to R215) -/

/-- The indexer's commands. -/
inductive IndexerCmd where
  | fetch
  | read
  | write
  | map
  | unmap
  | replace0
deriving DecidableEq, Repr

/-- The indexer's answer: its tables after the command, `rdata`, the fatal cause if any, and
`len0`. -/
structure IndexerOut where
  mem : Memory
  rdata : Word
  cause : Option Cause
  len0 : Word
deriving DecidableEq, Repr

/-- `fault`: 0 when there is none, else the cause code (R212). -/
def IndexerOut.fault (r : IndexerOut) : BitVec 4 :=
  match r.cause with
  | none => 0
  | some c => BitVec.ofNat 4 c.code

/-- An answer over the tables `m`. -/
def indexerAnswer (m : Memory) (rdata : Word) : IndexerOut :=
  { mem := m, rdata := rdata, cause := none, len0 := BitVec.ofNat 32 (m.lenOf 0) }

/-- The answer to a command that faults: nothing has changed (R212). -/
def indexerFault (m : Memory) (c : Cause) : IndexerOut :=
  { mem := m, rdata := Config.undrivenData, cause := some c, len0 := BitVec.ofNat 32 (m.lenOf 0) }

/-- The effect of each command is an operation of 20_memory.md (R212). -/
def indexerBlock (cfg : Params) (m : Memory) (cmd : IndexerCmd) (sid off wdata : Word) : IndexerOut :=
  match cmd with
  | .fetch =>
    match m.load 0 off with
    | .ok v => indexerAnswer m v
    | .error c => indexerFault m c
  | .read =>
    match m.load sid off with
    | .ok v => indexerAnswer m v
    | .error c => indexerFault m c
  | .write =>
    match m.store sid off wdata with
    | .ok m' => indexerAnswer m' Config.undrivenData
    | .error c => indexerFault m c
  | .map =>
    match m.map cfg wdata with
    | .ok r => indexerAnswer r.1 (BitVec.ofNat 32 r.2)
    | .error c => indexerFault m c
  | .unmap =>
    match m.unmap sid with
    | .ok m' => indexerAnswer m' Config.undrivenData
    | .error c => indexerFault m c
  | .replace0 =>
    match m.replaceZero cfg sid with
    | .ok m' => indexerAnswer m' Config.undrivenData
    | .error c => indexerFault m c

/-! ## Control unit (R205, R209, R217) -/

/-- What the control unit asserts in the commit cycle of an instruction. -/
structure Commit where
  /-- Write enable, address and data of the register file. -/
  we : Bool
  wa : RegIdx
  wd : Word
  /-- The PC unit's `load_pc` and `new_pc`. -/
  loadPc : Bool
  newPc : Word
  /-- The indexer's tables after its command, if one was issued. -/
  mem : Memory
  /-- `out_byte`, when `out_valid` is 1 (R216). -/
  outByte : Option Byte
  /-- The input stream after the byte the adapter handed over, if any (R216). -/
  input : InStream
  halt : Bool
deriving DecidableEq, Repr

/-- How an instruction ends its execution: commit, fatal condition, or still waiting in IN. -/
inductive CycleEnd where
  | commit (k : Commit)
  | fatal (c : Cause)
  | waiting
deriving DecidableEq, Repr

/-- A commit that changes nothing but the pc. `wa`, `wd` and `newPc` are free values: with `we` and
`loadPc` 0 no rule gives these ports a value (R205, R210; log 23). -/
def idleCommit (s : State) : Commit where
  we := false
  wa := Config.undrivenIndex .wa s
  wd := Config.undrivenWord .wd s
  loadPc := false
  newPc := Config.undrivenWord .newPc s
  mem := s.mem
  outByte := none
  input := s.input
  halt := false

/-- Commit a register write. -/
def commitWrite (s : State) (we : Bool) (wa : RegIdx) (wd : Word) : CycleEnd :=
  .commit { idleCommit s with we := we, wa := wa, wd := wd }

/-- Commit the indexer's answer, or report its fault. -/
def commitIndexer (r : IndexerOut) (k : Commit) : CycleEnd :=
  match r.cause with
  | some c => .fatal c
  | none => .commit k

/-- Commit an ALU result (R208): `div0` raises DivideByZero with the dividend. -/
def commitAlu (s : State) (op : AluOp) (d : DecoderOut) : CycleEnd :=
  let p := regFileRead s.regs d.b d.c
  let r := aluBlock op p.rd1 p.rd2
  if r.div0 then .fatal (.divideByZero p.rd1) else commitWrite s true d.a r.y

/-- Register read and execute, by opcode, with the port use of R205. SSTORE reads in two cycles. Ports
that R205 and R212 give no value for the opcode or the command carry free values (log 23). -/
def blockExecute (s : State) (d : DecoderOut) : CycleEnd :=
  if d.isLoadValue then commitWrite s true d.reg (d.value.setWidth 32)
  else
    match d.op.toNat with
    | 0 =>
      let p := regFileRead s.regs d.b d.c
      commitWrite s (isNonzero p.rd2) d.a p.rd1
    | 1 =>
      let p := regFileRead s.regs d.b d.c
      let r := indexerBlock s.cfg s.mem .read p.rd1 p.rd2 (Config.undrivenWord .wdata s)
      commitIndexer r { idleCommit s with we := true, wa := d.a, wd := r.rdata, mem := r.mem }
    | 2 =>
      let p := regFileRead s.regs d.a d.b
      let q := regFileRead s.regs d.c (Config.undrivenIndex .ra2 s)
      let r := indexerBlock s.cfg s.mem .write p.rd1 p.rd2 q.rd1
      commitIndexer r { idleCommit s with mem := r.mem }
    | 3 => commitAlu s .add d
    | 4 => commitAlu s .mul d
    | 5 => commitAlu s .div d
    | 6 => commitAlu s .nand d
    | 7 => .commit { idleCommit s with halt := true }
    | 8 =>
      let p := regFileRead s.regs (Config.undrivenIndex .ra1 s) d.c
      let r := indexerBlock s.cfg s.mem .map (Config.undrivenWord .sid s) (Config.undrivenWord .off s)
        p.rd2
      commitIndexer r { idleCommit s with we := true, wa := d.b, wd := r.rdata, mem := r.mem }
    | 9 =>
      let p := regFileRead s.regs (Config.undrivenIndex .ra1 s) d.c
      let r := indexerBlock s.cfg s.mem .unmap p.rd2 (Config.undrivenWord .off s)
        (Config.undrivenWord .wdata s)
      commitIndexer r { idleCommit s with mem := r.mem }
    | 10 =>
      let p := regFileRead s.regs (Config.undrivenIndex .ra1 s) d.c
      if isAboveByte p.rd2 then .fatal (.outputOutOfRange p.rd2)
      else .commit { idleCommit s with outByte := some (lowByte p.rd2) }
    | 11 =>
      match s.input.take with
      | .byte b rest =>
        .commit { idleCommit s with we := true, wa := d.c, wd := byteWord b, input := rest }
      | .endOfStream => commitWrite s true d.c endOfStreamWord
      | .notArrived => .waiting
    | _ =>
      let p := regFileRead s.regs d.b d.c
      let r := indexerBlock s.cfg s.mem .replace0 p.rd1 (Config.undrivenWord .off s)
        (Config.undrivenWord .wdata s)
      commitIndexer r { idleCommit s with loadPc := true, newPc := p.rd2, mem := r.mem }

/-- The architectural state after the commit edge (R200): every block takes its next state at
once. -/
def State.commitEdge (s : State) (k : Commit) : State where
  regs := regFileClock s.regs false k.we k.wa k.wd
  pc := pcClock s.pc false true k.loadPc k.newPc
  status := if k.halt then .halted else s.status
  mem := k.mem
  input := k.input
  out := s.out ++ k.outByte.toList
  cfg := s.cfg

/-- One instruction through the blocks, from a `Running` state: PC check, fetch, decode, register
read, execute, commit (R201, R217). A fatal condition asserts no write enable and does not commit. -/
def blockStep (s : State) : State :=
  if pcOob s.pc (indexerAnswer s.mem Config.undrivenData).len0 then s.raise (.pcOutOfBounds s.pc)
  else
    let f := indexerBlock s.cfg s.mem .fetch 0 s.pc (Config.undrivenWord .wdata s)
    match f.cause with
    | some c => s.raise c
    | none =>
      let d := decoderBlock f.rdata
      if d.invalid then s.raise (.invalidOpcode s.pc f.rdata)
      else
        match blockExecute s d with
        | .commit k => s.commitEdge k
        | .fatal c => s.raise c
        | .waiting => s

end Sys2Proof.Machine
end

