-- ==== Sys2Proof/Machine/Environment.lean ====
section
/-!
DEFINITION. What the outside world does to the machine: the loader's product at reset
(70_reset_and_hazards.md R270 to R273) and the arrival of input between steps (44_io.md R193, R195).
-/

namespace Sys2Proof.Machine

/-- The Words of a program image, big-endian; none when a partial chunk is left over (R273). -/
def imageWords : List Byte → Option (List Word)
  | [] => some []
  | b0 :: b1 :: b2 :: b3 :: rest => (imageWords rest).map (wordOfBytes b0 b1 b2 b3 :: ·)
  | _ => none

/-- The reset state of R41 for a program image of Words and an input stream: the bytes that have
arrived so far, and whether end-of-stream follows them. It holds nothing of an earlier run (R42). -/
def State.bootWords (cfg : Params) (image : List Word) (arrived : List Byte) (ended : Bool) : State where
  regs := Vector.replicate 8 0
  pc := 0
  status := .running
  mem := { segs := [(0, Segment.ofWords image)], free := [], nextId := 1 }
  input := { pending := arrived, ended := ended, consumed := 0 }
  out := []
  cfg := cfg

/-- Reset with the bytes of a program image (R273): a partial trailing chunk or more than
IMAGE_WORDS_MAX Words is `LoaderError`, and the run has ended before its first step (R249). -/
def State.boot (cfg : Params) (image : List Byte) (arrived : List Byte) (ended : Bool) : State :=
  match imageWords image with
  | some ws =>
    if ws.length ≤ cfg.imageWordsMax then State.bootWords cfg ws arrived ended
    else (State.bootWords cfg [] arrived ended).raise .loaderError
  | none => (State.bootWords cfg [] arrived ended).raise .loaderError

/-- The environment delivers the next byte of `in` (R35, R195). A stream that has ended stays ended
(R193). -/
def State.deliver (s : State) (b : Byte) : State :=
  if s.input.ended then s else s.setInput { s.input with pending := s.input.pending ++ [b] }

/-- The environment ends the input stream (R35, R195). -/
def State.endInput (s : State) : State := s.setInput { s.input with ended := true }

end Sys2Proof.Machine
end

