-- ==== Sys2Proof/Safety.lean ====
section
/-!
DEFINITION. The words claims are stated in: the invariants of the memory state (10_state.md R33), what
a safe run is (60_exceptions.md R240), the frames of instructions, and the tables of R22 and R250.
-/

namespace Sys2Proof.Machine

/-! ## Invariants -/

/-- R33, clause by clause, with the canonical form of the model's tables and the bound of R29 on the
length of a segment. -/
structure Memory.Consistent (cfg : Params) (m : Memory) : Prop where
  canonical : m.wf
  /-- R33.1 -/
  zeroLive : (tableGet m.segs 0).isSome
  /-- R33.2 -/
  zeroNotFree : 0 ∉ m.free
  /-- R33.3 -/
  unissued : ∀ s, m.nextId ≤ s → tableGet m.segs s = none ∧ s ∉ m.free
  /-- R33.4 -/
  issued : ∀ s, 1 ≤ s → s < m.nextId → ((tableGet m.segs s).isSome ↔ s ∉ m.free)
  /-- R33.5 -/
  freeDistinct : m.free.Nodup
  /-- R33.6 -/
  counter : 1 ≤ m.nextId ∧ m.nextId ≤ cfg.maxSegments
  /-- R29 -/
  lengths : ∀ e ∈ m.segs, e.2.len < 2 ^ 32

/-- The invariant of every state a run reaches: the parameters are in their ranges (R7) and the
memory state is consistent (R33). -/
structure State.Inv (s : State) : Prop where
  params : s.cfg.valid
  memory : s.mem.Consistent s.cfg

/-! ## Safe runs -/

/-- The run has not ended in a fatal condition: "a faulted state is never a successful end of a run"
(R240). -/
def State.Safe (s : State) : Prop := ∀ c p, s.status ≠ .faulted c p

/-! ## Frames -/

/-- Memory is as before: every Word reads as before, and so do lengths, liveness, the free list and
the counter. -/
structure MemoryKept (s t : State) : Prop where
  words : ∀ i o, t.mem.peek i o = s.mem.peek i o
  whole : t.mem = s.mem

/-- Everything but the registers, the memory and the pc is as before. -/
structure OutsideKept (s t : State) : Prop where
  status : t.status = s.status
  input : t.input = s.input
  out : t.out = s.out
  cfg : t.cfg = s.cfg

/-- Only register `r` and the pc may have changed. -/
structure OnlyRegister (r : RegIdx) (s t : State) : Prop where
  others : ∀ q, q ≠ r → t.reg q = s.reg q
  memory : MemoryKept s t
  outside : OutsideKept s t

/-- No register changed. -/
def RegistersKept (s t : State) : Prop := ∀ q, t.reg q = s.reg q

/-- The fatal condition `c` was taken in `s`: the status records it and the offset of the faulting
instruction, and registers, memory and streams are as before (R128). The pc is not mentioned: D14. -/
structure FaultTaken (c : Cause) (s t : State) : Prop where
  status : t.status = .faulted c s.pc
  registers : RegistersKept s t
  memory : MemoryKept s t
  input : t.input = s.input
  out : t.out = s.out
  cfg : t.cfg = s.cfg

/-- `n` Words of storage exceed MAX_WORDS (R7). -/
def ExceedsWords (cfg : Params) (n : Nat) : Prop := ∃ k, cfg.maxWords = some k ∧ k < n

/-- Every segment but those of identifier `k` is as before: live or not, with its length and its
Words (R56). -/
def OtherSegmentsKept (k : Word) (s t : State) : Prop :=
  ∀ i, i ≠ k → t.mem.live i = s.mem.live i ∧ t.mem.lenOf i = s.mem.lenOf i ∧
    ∀ o, t.mem.peek i o = s.mem.peek i o

/-- The segment `k` is live, `n` Words long, and every one of its Words is 0 (R51). -/
def ZeroSegment (m : Memory) (k : Word) (n : Nat) : Prop :=
  m.live k = true ∧ m.lenOf k = n ∧ ∀ o : Word, o.toNat < n → m.peek k o = some 0

/-- `IN` would wait: nothing has arrived and the stream has not ended (R193). -/
def State.InputWaits (s : State) : Prop := s.input.pending = [] ∧ s.input.ended = false

/-- The input stream is at end-of-stream: no byte is left and none will come (R193). -/
def State.AtEndOfStream (s : State) : Prop := s.input.pending = [] ∧ s.input.ended = true

/-! ## Tables of the spec -/

/-- The registers an instruction reads (R22). -/
def regsRead : Instr → List RegIdx
  | .cmov _ b c => [b, c]
  | .sload _ b c => [b, c]
  | .sstore a b c => [a, b, c]
  | .add _ b c => [b, c]
  | .mul _ b c => [b, c]
  | .div _ b c => [b, c]
  | .nand _ b c => [b, c]
  | .halt => []
  | .map _ c => [c]
  | .unmap c => [c]
  | .out c => [c]
  | .inp _ => []
  | .loadp b c => [b, c]
  | .loadv _ _ => []
  | .invalid14 _ => []
  | .invalid15 _ => []

/-- The register an instruction may write (R22). -/
def regWritten : Instr → Option RegIdx
  | .cmov a _ _ => some a
  | .sload a _ _ => some a
  | .sstore _ _ _ => none
  | .add a _ _ => some a
  | .mul a _ _ => some a
  | .div a _ _ => some a
  | .nand a _ _ => some a
  | .halt => none
  | .map b _ => some b
  | .unmap _ => none
  | .out _ => none
  | .inp c => some c
  | .loadp _ _ => none
  | .loadv r _ => some r
  | .invalid14 _ => none
  | .invalid15 _ => none

/-- The matrix of R250: which cause an instruction can raise. The row "step, before dispatch" is
PcOutOfBounds, and InvalidOpcode for the two invalid opcodes. -/
def mayRaise : Instr → Cause → Bool
  | .sload _ _ _, .unmappedSegment _ _ => true
  | .sload _ _ _, .offsetOutOfBounds _ _ => true
  | .sstore _ _ _, .unmappedSegment _ _ => true
  | .sstore _ _ _, .offsetOutOfBounds _ _ => true
  | .div _ _ _, .divideByZero _ => true
  | .map _ _, .resourceExhausted _ => true
  | .unmap _, .badUnmapZero => true
  | .unmap _, .badUnmapNotLive _ => true
  | .out _, .outputOutOfRange _ => true
  | .loadp _ _, .unmappedSegment _ _ => true
  | .loadp _ _, .resourceExhausted _ => true
  | .invalid14 _, .invalidOpcode _ _ => true
  | .invalid15 _, .invalidOpcode _ _ => true
  | _, _ => false

/-- The instructions that may change memory (R70); the fetch reads it in every step. -/
def writesMemory : Instr → Bool
  | .sstore _ _ _ => true
  | .map _ _ => true
  | .unmap _ => true
  | .loadp _ _ => true
  | _ => false

end Sys2Proof.Machine
end

