-- ==== Sys2Proof/Certificates/Slice0/Obligations.lean ====
section
/-!
DEFINITION. The statements for the provers, from the numbered rules of spec/. Each docstring names the
rules a statement formalises. `exec i s` is the instruction with its advance of the pc (R126).
-/

open Sys2Proof Sys2Proof.Machine

/-! ## Encoding and decoding (30_encoding.md) -/

/-- R112: decoding the canonical Word of a well-formed instruction gives it back, with every operand
at every value. -/
def Obligations.DecodeInvertsEncode : Prop :=
  ∀ i, WellFormed i → decode (encode i) = i

/-- R112: encoding what a Word decodes to gives the Word back exactly when its ignored bits are
zero. -/
def Obligations.EncodeInvertsDecodeOnCanonical : Prop :=
  ∀ w, encode (decode w) = w ↔ w &&& ignoredMask w = 0

/-- R105, R106: whatever the ignored bits hold, the Word decodes to the same instruction; the
ignored bits take in bits 27:9 of every Standard Word; the canonical Word has them all zero; and the
two examples of R105. -/
def Obligations.IgnoredBitsHaveNoEffect : Prop :=
  (∀ w u, decode ((w &&& ~~~ignoredMask w) ||| (u &&& ignoredMask w)) = decode w) ∧
  (∀ w : Word, w.toNat / 2 ^ 28 ≤ 12 → 0x0FFFFE00 &&& ignoredMask w = 0x0FFFFE00) ∧
  (∀ i, WellFormed i → encode i &&& ignoredMask (encode i) = 0) ∧
  decode 0x7FFFFFFF = .halt ∧ decode 0x3FFFFECA = decode 0x300000CA ∧
  decode 0x3FFFFECA = .add 3 1 2

/-- R100, R101: the tagged result, from the numbers of the fields. -/
def Obligations.DecoderTagsByOpcode : Prop :=
  ∀ w : Word,
    (w.toNat / 2 ^ 28 ≤ 12 → ∃ op a b c, decodeFields w = .standard op a b c ∧
      op.toNat = w.toNat / 2 ^ 28 ∧ a.toNat = w.toNat / 2 ^ 6 % 8 ∧
      b.toNat = w.toNat / 2 ^ 3 % 8 ∧ c.toNat = w.toNat % 8) ∧
    (w.toNat / 2 ^ 28 = 13 → ∃ r v, decodeFields w = .loadValue r v ∧
      r.toNat = w.toNat / 2 ^ 25 % 8 ∧ v.toNat = w.toNat % 2 ^ 25) ∧
    (14 ≤ w.toNat / 2 ^ 28 → decodeFields w = .invalid)

/-- R102: every Word decodes, to an instruction that is well formed. -/
def Obligations.DecodedIsWellFormed : Prop := ∀ w, WellFormed (decode w)

/-- 95_test_vectors.md V-ENC-15 to V-ENC-23: Words written out from the layouts of R98 and R99
decode to the instructions they stand for. -/
def Obligations.WrittenWordsDecode : Prop :=
  decode 0xD0000048 = .loadv 0 72 ∧ decode 0x3FFFFE53 = .add 1 2 3 ∧
  decode 0xE0000000 = .invalid14 0xE0000000 ∧ decode 0xF1234567 = .invalid15 0xF1234567 ∧
  decode 0xDFFFFFFF = .loadv 7 0x1FFFFFF ∧ decode 0x000001FF = .cmov 7 7 7 ∧
  decode 0xCABCDE3A = .loadp 7 2 ∧ decode 0x00000000 = .cmov 0 0 0 ∧
  decode 0x80000011 = .map 2 1

/-- R90, R92, R93: bit k of `extract` is bit `lsb + k` of the Word below `width` and clear from
`width` on; the whole Word at width 32; 0 at width 0. -/
def Obligations.ExtractSelectsField : Prop :=
  (∀ (w : Word) (width lsb k : Nat), width + lsb ≤ 32 →
    (extract w width lsb).getLsbD k = (decide (k < width) && w.getLsbD (lsb + k))) ∧
  (∀ w : Word, extract w 32 0 = w) ∧
  (∀ (w : Word) (lsb : Nat), lsb ≤ 32 → extract w 0 lsb = 0)

/-- R91: outside the precondition the general `extract` is fatal with `BitfieldRange`, inside it is
`extract`; the six constant pairs of R94 are inside. -/
def Obligations.ExtractRangeIsFatal : Prop :=
  (∀ (w : Word) (width lsb : Nat), 32 < width + lsb →
    extractOrFault w width lsb = .error (.bitfieldRange width lsb)) ∧
  (∀ (w : Word) (width lsb : Nat), width + lsb ≤ 32 →
    extractOrFault w width lsb = .ok (extract w width lsb)) ∧
  (∀ (w : Word), ∀ p ∈ [(4, 28), (3, 6), (3, 3), (3, 0), (3, 25), (25, 0)],
    extractOrFault w p.1 p.2 = .ok (extract w p.1 p.2))

/-- R96, stated property of the consumed contract: for a value that fits, `set_unsigned` gives a word, in
which `get_unsigned` reads the value and every bit outside the field is as before. The definition of
`set_unsigned` is not the document's (G1; log 14). -/
def Obligations.SetUnsignedThenGet : Prop :=
  ∀ (w : Word) (width lsb : Nat) (v : Int), width + lsb ≤ 32 → fitsUnsigned v width = true →
    ∃ w' u : Word, setUnsigned w width lsb v = .ok w' ∧ getUnsigned w' width lsb = .ok u ∧
      (u.toNat : Int) = v ∧
      ∀ k, k < lsb ∨ lsb + width ≤ k → w'.getLsbD k = w.getLsbD k

/-! ## The step (40_execution_step.md) -/

/-- R121 to R125, R129: a step from a `Running` state whose pc is in bounds runs the instruction the
Word at the pc decodes to, and nothing else. -/
def Obligations.StepRunsDecodedInstruction : Prop :=
  ∀ (s : State) (w : Word), s.status = .running → s.mem.peek 0 s.pc = some w →
    step s = exec (decode w) s

/-- R121, R242: a pc at or beyond the length of segment 0 ends the run with PcOutOfBounds, before
any instruction is fetched. -/
def Obligations.PcBoundIsChecked : Prop :=
  ∀ s : State, s.status = .running → s.mem.lenOf 0 ≤ s.pc.toNat →
    ∃ t, step s = .next t ∧ FaultTaken (.pcOutOfBounds s.pc) s t

/-- R120: a state whose run has ended has no step; U8 has it stuck, which the model says with a fault of
its own (log 8). R129, R195: a `Running` state always has a next state; where an IN waits it is the same
state, which is the model's reading (log 7; the last clause). -/
def Obligations.TerminalStatesHaveNoStep : Prop :=
  (∀ s : State, s.status = .halted → step s = .fault .runHalted) ∧
  (∀ (s : State) c p, s.status = .faulted c p → step s = .fault (.runFaulted c p)) ∧
  (∀ s : State, s.status = .running → ∃ t, step s = .next t) ∧
  (∀ (s : State) (w : Word) (c : RegIdx), s.status = .running → s.mem.peek 0 s.pc = some w →
    decode w = .inp c → s.InputWaits → step s = .next s)

/-- R104, R123, R243: exactly the Words from 0xE0000000 on are invalid, and their execution is the
fatal condition InvalidOpcode, which records the pc and the Word. -/
def Obligations.InvalidOpcodeIsFatal : Prop :=
  (∀ w : Word, decodeFields w = .invalid ↔ 0xE0000000 ≤ w.toNat) ∧
  (∀ w : Word, 0xE0000000 ≤ w.toNat → decode w = .invalid14 w ∨ decode w = .invalid15 w) ∧
  (∀ (w : Word) (s : State),
    ∃ t, exec (.invalid14 w) s = .next t ∧ FaultTaken (.invalidOpcode s.pc w) s t) ∧
  (∀ (w : Word) (s : State),
    ∃ t, exec (.invalid15 w) s = .next t ∧ FaultTaken (.invalidOpcode s.pc w) s t)

/-- R126: after any completed instruction but LOADP the pc is the old pc plus 1; after LOADP it is
the value read from register C. An IN that waits has not completed; in a terminal state the pc means
nothing (D14). -/
def Obligations.NetEffectOnPc : Prop :=
  (∀ (i : Instr) (s t : State), exec i s = .next t → t.status = .running →
    (∀ b c, i ≠ .loadp b c) → (∀ c, i = .inp c → ¬ s.InputWaits) → t.pc = s.pc + 1) ∧
  (∀ (b c : RegIdx) (s t : State), exec (.loadp b c) s = .next t →
    t.status = .running → t.pc = s.reg c)

/-- R128: a step either goes on or halts, or it raises exactly one fatal cause and changes nothing
else: not the registers, the memory or the streams. -/
def Obligations.FaultsArePrecise : Prop :=
  ∀ (s t : State) c p, step s = .next t → t.status = .faulted c p → FaultTaken c s t ∧ p = s.pc

/-- R250: which instruction can raise which cause, complete; before dispatch only PcOutOfBounds, and
InvalidOpcode for an invalid Word. -/
def Obligations.FaultMatrix : Prop :=
  (∀ (i : Instr) (s t : State) c p, s.status = .running → exec i s = .next t →
    t.status = .faulted c p → mayRaise i c = true) ∧
  (∀ (s t : State) c p, step s = .next t → t.status = .faulted c p →
    (∃ q, c = .pcOutOfBounds q) ∨ mayRaise s.fetch c = true)

/-- R131: where a step reaches the advance, `pc + 1` does not wrap. -/
def Obligations.PcIncrementNeverWraps : Prop :=
  ∀ s : State, s.Inv → s.pc.toNat < s.mem.lenOf 0 → (s.pc + 1).toNat = s.pc.toNat + 1

/-- R68: a store to segment 0 is what any later fetch from that offset runs; a store to the next Word is
the instruction of the very next step; and the step after a LOADP fetches from the new segment 0. -/
def Obligations.FetchSeesStoresAndLoads : Prop :=
  (∀ (s : State) (a b c : RegIdx), s.reg a = 0 → (s.reg b).toNat < s.mem.lenOf 0 →
    ∃ t, exec (.sstore a b c) s = .next t ∧
      ∀ u : State, u.mem = t.mem → u.status = .running → u.pc = s.reg b →
        step u = exec (decode (s.reg c)) u) ∧
  (∀ (s : State) (w : Word) (a b c : RegIdx), s.status = .running →
    s.mem.peek 0 s.pc = some w → decode w = .sstore a b c →
    s.reg a = 0 → s.reg b = s.pc + 1 → (s.pc + 1).toNat < s.mem.lenOf 0 →
    ∃ t, step s = .next t ∧ t.pc = s.pc + 1 ∧ step t = exec (decode (s.reg c)) t) ∧
  (∀ (s : State) (w v : Word) (b c : RegIdx), s.status = .running →
    s.mem.peek 0 s.pc = some w → decode w = .loadp b c →
    s.reg b ≠ 0 → ¬ ExceedsWords s.cfg (s.mem.wordsInUse - s.mem.lenOf 0 + s.mem.lenOf (s.reg b)) →
    s.mem.peek (s.reg b) (s.reg c) = some v →
    ∃ t, step s = .next t ∧ t.pc = s.reg c ∧ step t = exec (decode v) t)

/-! ## Register-to-register instructions (41_alu.md) -/

/-- R140: CMOV copies `x[B]` to `x[A]` when `x[C]` is not 0 and else writes nothing. -/
def Obligations.CmovMovesWhenNonzero : Prop :=
  ∀ (a b c : RegIdx) (s : State),
    (encode (.cmov a b c)).toNat = a.toNat * 64 + b.toNat * 8 + c.toNat ∧
    ∃ t, exec (.cmov a b c) s = .next t ∧
      t.reg a = (if s.reg c = 0 then s.reg a else s.reg b) ∧
      t.pc = s.pc + 1 ∧ OnlyRegister a s t

/-- R141: ADD is the sum modulo 2^32. -/
def Obligations.AddWrapsModulo : Prop :=
  ∀ (a b c : RegIdx) (s : State),
    (encode (.add a b c)).toNat = 0x30000000 + a.toNat * 64 + b.toNat * 8 + c.toNat ∧
    ∃ t, exec (.add a b c) s = .next t ∧
      (t.reg a).toNat = ((s.reg b).toNat + (s.reg c).toNat) % 2 ^ 32 ∧
      t.pc = s.pc + 1 ∧ OnlyRegister a s t

/-- R142: MUL is the low 32 bits of the product. -/
def Obligations.MulKeepsLowHalf : Prop :=
  ∀ (a b c : RegIdx) (s : State),
    (encode (.mul a b c)).toNat = 0x40000000 + a.toNat * 64 + b.toNat * 8 + c.toNat ∧
    ∃ t, exec (.mul a b c) s = .next t ∧
      (t.reg a).toNat = ((s.reg b).toNat * (s.reg c).toNat) % 2 ^ 32 ∧
      t.pc = s.pc + 1 ∧ OnlyRegister a s t

/-- R143, R245: DIV is the unsigned floor quotient; a zero divisor is fatal for every dividend. -/
def Obligations.DivIsUnsignedFloor : Prop :=
  ∀ (a b c : RegIdx) (s : State),
    (encode (.div a b c)).toNat = 0x50000000 + a.toNat * 64 + b.toNat * 8 + c.toNat ∧
    (s.reg c ≠ 0 → ∃ t, exec (.div a b c) s = .next t ∧
      (t.reg a).toNat = (s.reg b).toNat / (s.reg c).toNat ∧
      t.pc = s.pc + 1 ∧ OnlyRegister a s t) ∧
    (s.reg c = 0 → ∃ t, exec (.div a b c) s = .next t ∧
      FaultTaken (.divideByZero (s.reg b)) s t)

/-- R148: the quotient is the unique `q` with `q * c <= b < (q + 1) * c`, and it is at most `b`. -/
def Obligations.DivQuotientIsUnique : Prop :=
  (∀ (a b c : RegIdx) (s : State), s.reg c ≠ 0 → ∃ t, exec (.div a b c) s = .next t ∧
    (t.reg a).toNat ≤ (s.reg b).toNat ∧
    ∀ q : Nat, q * (s.reg c).toNat ≤ (s.reg b).toNat ∧
      (s.reg b).toNat < (q + 1) * (s.reg c).toNat ↔ q = (t.reg a).toNat) ∧
  (∀ (a b c : RegIdx) (s : State), s.reg c = 0 → ∃ t, exec (.div a b c) s = .next t ∧
    FaultTaken (.divideByZero (s.reg b)) s t)

/-- R144: each bit of NAND is 0 only where both inputs have 1. -/
def Obligations.NandIsBitwise : Prop :=
  ∀ (a b c : RegIdx) (s : State),
    (encode (.nand a b c)).toNat = 0x60000000 + a.toNat * 64 + b.toNat * 8 + c.toNat ∧
    ∃ t, exec (.nand a b c) s = .next t ∧
      (∀ k, k < 32 → (t.reg a).getLsbD k = !((s.reg b).getLsbD k && (s.reg c).getLsbD k)) ∧
      t.pc = s.pc + 1 ∧ OnlyRegister a s t

/-- R145, R108: LOADV writes the 25-bit immediate, zero-extended: bits 31:25 become 0. -/
def Obligations.LoadvZeroExtends : Prop :=
  ∀ (r : RegIdx) (v : Imm25) (s : State),
    (encode (.loadv r v)).toNat = 0xD0000000 + r.toNat * 0x02000000 + v.toNat ∧
    ∃ t, exec (.loadv r v) s = .next t ∧
      (t.reg r).toNat = v.toNat ∧ (∀ k, 25 ≤ k → (t.reg r).getLsbD k = false) ∧
      t.pc = s.pc + 1 ∧ OnlyRegister r s t

/-! ## Segment instructions (42_segment.md, 20_memory.md) -/

/-- R160, R53: SLOAD reads the Word at `(x[B], x[C])`; a dead identifier is UnmappedSegment, else an
offset at or beyond the length is OffsetOutOfBounds. -/
def Obligations.SloadReadsWord : Prop :=
  ∀ (a b c : RegIdx) (s : State),
    (encode (.sload a b c)).toNat = 0x10000000 + a.toNat * 64 + b.toNat * 8 + c.toNat ∧
    (s.mem.live (s.reg b) = true → (s.reg c).toNat < s.mem.lenOf (s.reg b) →
      ∃ t, exec (.sload a b c) s = .next t ∧
        s.mem.peek (s.reg b) (s.reg c) = some (t.reg a) ∧
        t.pc = s.pc + 1 ∧ OnlyRegister a s t) ∧
    (s.mem.live (s.reg b) = false →
      ∃ t, exec (.sload a b c) s = .next t ∧
        FaultTaken (.unmappedSegment (s.reg b) (some (s.reg c))) s t) ∧
    (s.mem.live (s.reg b) = true → s.mem.lenOf (s.reg b) ≤ (s.reg c).toNat →
      ∃ t, exec (.sload a b c) s = .next t ∧
        FaultTaken (.offsetOutOfBounds (s.reg b) (s.reg c)) s t)

/-- R161, R54: SSTORE writes `x[C]` at `(x[A], x[B])`, exactly one Word, and never changes a length;
the faults of SLOAD. -/
def Obligations.SstoreWritesWord : Prop :=
  ∀ (a b c : RegIdx) (s : State),
    (encode (.sstore a b c)).toNat = 0x20000000 + a.toNat * 64 + b.toNat * 8 + c.toNat ∧
    (s.mem.live (s.reg a) = true → (s.reg b).toNat < s.mem.lenOf (s.reg a) →
      ∃ t, exec (.sstore a b c) s = .next t ∧
        t.mem.peek (sstoreAddress a b s).1 (sstoreAddress a b s).2 = some (s.reg c) ∧
        (∀ i o, (i, o) ≠ sstoreAddress a b s → t.mem.peek i o = s.mem.peek i o) ∧
        (∀ i, t.mem.live i = s.mem.live i ∧ t.mem.lenOf i = s.mem.lenOf i) ∧
        t.mem.free = s.mem.free ∧ t.mem.nextId = s.mem.nextId ∧
        RegistersKept s t ∧ OutsideKept s t ∧ t.pc = s.pc + 1) ∧
    (s.mem.live (s.reg a) = false →
      ∃ t, exec (.sstore a b c) s = .next t ∧
        FaultTaken (.unmappedSegment (s.reg a) (some (s.reg b))) s t) ∧
    (s.mem.live (s.reg a) = true → s.mem.lenOf (s.reg a) ≤ (s.reg b).toNat →
      ∃ t, exec (.sstore a b c) s = .next t ∧
        FaultTaken (.offsetOutOfBounds (s.reg a) (s.reg b)) s t)

/-- R162, R51, free list empty: MAP issues `next_id`, a zero-filled segment of `x[C]` Words, and
counts on. -/
def Obligations.MapIssuesFreshIdentifier : Prop :=
  ∀ (b c : RegIdx) (s : State), s.Inv → s.mem.free = [] → s.mem.nextId ≠ s.cfg.maxSegments →
    ¬ ExceedsWords s.cfg (s.mem.wordsInUse + (s.reg c).toNat) →
    ∃ t, exec (.map b c) s = .next t ∧
      (t.reg b).toNat = s.mem.nextId ∧ ZeroSegment t.mem (t.reg b) (s.reg c).toNat ∧
      OtherSegmentsKept (t.reg b) s t ∧ t.mem.free = [] ∧ t.mem.nextId = s.mem.nextId + 1 ∧
      (∀ q, q ≠ b → t.reg q = s.reg q) ∧ OutsideKept s t ∧ t.pc = s.pc + 1

/-- R162, R51, an identifier is free: MAP reuses a free one (the one unmapped most recently under
LIFO), which leaves the free list, and the counter stays. -/
def Obligations.MapReusesFreeIdentifier : Prop :=
  ∀ (b c : RegIdx) (s : State), s.Inv → s.mem.free ≠ [] →
    ¬ ExceedsWords s.cfg (s.mem.wordsInUse + (s.reg c).toNat) →
    ∃ t, exec (.map b c) s = .next t ∧
      (t.reg b).toNat ∈ s.mem.free ∧
      (s.cfg.freePick = .lifo → s.mem.free.getLast? = some (t.reg b).toNat) ∧
      ZeroSegment t.mem (t.reg b) (s.reg c).toNat ∧ OtherSegmentsKept (t.reg b) s t ∧
      t.mem.free = s.mem.free.erase (t.reg b).toNat ∧ t.mem.nextId = s.mem.nextId ∧
      (∀ q, q ≠ b → t.reg q = s.reg q) ∧ OutsideKept s t ∧ t.pc = s.pc + 1

/-- R51, R162, R248: MAP is fatal with ResourceExhausted exactly when it needs identifier
MAX_SEGMENTS or more storage than MAX_WORDS, and then changes nothing. -/
def Obligations.MapExhaustionIsFatal : Prop :=
  ∀ (b c : RegIdx) (s : State),
    (encode (.map b c)).toNat = 0x80000000 + b.toNat * 8 + c.toNat ∧
    ((s.mem.free = [] ∧ s.mem.nextId = s.cfg.maxSegments) ∨
        ExceedsWords s.cfg (s.mem.wordsInUse + (s.reg c).toNat) →
      ∃ t, exec (.map b c) s = .next t ∧
        FaultTaken (.resourceExhausted (s.reg c).toNat) s t) ∧
    (∀ t, exec (.map b c) s = .next t → t.status ≠ s.status →
      (s.mem.free = [] ∧ s.mem.nextId = s.cfg.maxSegments) ∨
        ExceedsWords s.cfg (s.mem.wordsInUse + (s.reg c).toNat))

/-- R163, R52: UNMAP makes a live, non-zero identifier dead and pushes it on the free list; its two
fatal conditions. -/
def Obligations.UnmapReleasesSegment : Prop :=
  ∀ (c : RegIdx) (s : State),
    (encode (.unmap c)).toNat = 0x90000000 + c.toNat ∧
    (s.reg c ≠ 0 → s.mem.live (s.reg c) = true →
      ∃ t, exec (.unmap c) s = .next t ∧
        t.mem.live (s.reg c) = false ∧ t.mem.free = s.mem.free ++ [(s.reg c).toNat] ∧
        t.mem.nextId = s.mem.nextId ∧ OtherSegmentsKept (s.reg c) s t ∧
        RegistersKept s t ∧ OutsideKept s t ∧ t.pc = s.pc + 1) ∧
    (s.reg c = 0 → ∃ t, exec (.unmap c) s = .next t ∧ FaultTaken .badUnmapZero s t) ∧
    (s.reg c ≠ 0 → s.mem.live (s.reg c) = false →
      ∃ t, exec (.unmap c) s = .next t ∧ FaultTaken (.badUnmapNotLive (s.reg c)) s t)

/-- R56: the identifier MAP returns was not live, is live after, and is never 0; every other segment
keeps its length and contents across MAP and across UNMAP of a different identifier. -/
def Obligations.MapNeverAliases : Prop :=
  (∀ (b c : RegIdx) (s t : State), s.Inv →
    exec (.map b c) s = .next t → t.status = .running →
    s.mem.live (t.reg b) = false ∧ t.mem.live (t.reg b) = true ∧ t.reg b ≠ 0 ∧
      OtherSegmentsKept (t.reg b) s t) ∧
  (∀ (c : RegIdx) (s t : State), exec (.unmap c) s = .next t →
    OtherSegmentsKept (s.reg c) s t)

/-- R57: a mapped segment reads 0 throughout; after `unmap(k)` the identifier is dead, the next MAP
under LIFO returns it again, and any SLOAD, SSTORE, UNMAP or LOADP that names a dead identifier is
fatal. -/
def Obligations.DeadIdentifiersAreFatal : Prop :=
  (∀ (b c : RegIdx) (s t : State), s.Inv →
    exec (.map b c) s = .next t → t.status = .running →
    ZeroSegment t.mem (t.reg b) (s.reg c).toNat) ∧
  (∀ (c : RegIdx) (s t : State), exec (.unmap c) s = .next t → t.status = .running →
    t.mem.live (s.reg c) = false) ∧
  (∀ (b c d : RegIdx) (s t u : State), s.cfg.freePick = .lifo →
    exec (.unmap c) s = .next t → t.status = .running →
    exec (.map b d) t = .next u → u.status = .running → u.reg b = s.reg c) ∧
  (∀ (k : Word) (u : State), k ≠ 0 → u.mem.live k = false →
    (∀ a b c, u.reg b = k → ∃ t, exec (.sload a b c) u = .next t ∧
      FaultTaken (.unmappedSegment k (some (u.reg c))) u t) ∧
    (∀ a b c, u.reg a = k → ∃ t, exec (.sstore a b c) u = .next t ∧
      FaultTaken (.unmappedSegment k (some (u.reg b))) u t) ∧
    (∀ c, u.reg c = k → ∃ t, exec (.unmap c) u = .next t ∧
      FaultTaken (.badUnmapNotLive k) u t) ∧
    (∀ b c, u.reg b = k → ∃ t, exec (.loadp b c) u = .next t ∧
      FaultTaken (.unmappedSegment k none) u t))

/-! ## Control (43_control.md) -/

/-- R180: HALT sets the run status, touches no register, memory or stream, and no step follows; the host
reports exit status 0. -/
def Obligations.HaltEndsTheRun : Prop :=
  (encode .halt).toNat = 0x70000000 ∧
  ∀ s : State, ∃ t, exec .halt s = .next t ∧ t.status = .halted ∧ t.status.exitStatus = some 0 ∧
    RegistersKept s t ∧ MemoryKept s t ∧ t.input = s.input ∧ t.out = s.out ∧ t.cfg = s.cfg ∧
    step t = .fault .runHalted

/-- R181, R55: LOADP jumps to `x[C]`; with `x[B] = 0` memory is untouched, with a live `x[B]` segment
0 becomes a copy of it; a dead one is UnmappedSegment, a copy beyond MAX_WORDS ResourceExhausted. A
target out of bounds is reported by the next step. -/
def Obligations.LoadpLoadsProgram : Prop :=
  ∀ (b c : RegIdx) (s : State),
    (encode (.loadp b c)).toNat = 0xC0000000 + b.toNat * 8 + c.toNat ∧
    (s.reg b = 0 → ∃ t, exec (.loadp b c) s = .next t ∧ t.pc = s.reg c ∧
      MemoryKept s t ∧ RegistersKept s t ∧ OutsideKept s t) ∧
    (s.reg b ≠ 0 → s.mem.live (s.reg b) = true →
      ¬ ExceedsWords s.cfg (s.mem.wordsInUse - s.mem.lenOf 0 + s.mem.lenOf (s.reg b)) →
      ∃ t, exec (.loadp b c) s = .next t ∧ t.pc = s.reg c ∧
        t.mem.live 0 = true ∧ t.mem.lenOf 0 = s.mem.lenOf (s.reg b) ∧
        (∀ o, t.mem.peek 0 o = s.mem.peek (s.reg b) o) ∧ OtherSegmentsKept 0 s t ∧
        t.mem.free = s.mem.free ∧ t.mem.nextId = s.mem.nextId ∧
        RegistersKept s t ∧ OutsideKept s t) ∧
    (s.reg b ≠ 0 → s.mem.live (s.reg b) = false →
      ∃ t, exec (.loadp b c) s = .next t ∧ FaultTaken (.unmappedSegment (s.reg b) none) s t) ∧
    (s.reg b ≠ 0 → s.mem.live (s.reg b) = true →
      ExceedsWords s.cfg (s.mem.wordsInUse - s.mem.lenOf 0 + s.mem.lenOf (s.reg b)) →
      ∃ t, exec (.loadp b c) s = .next t ∧
        FaultTaken (.resourceExhausted (s.mem.lenOf (s.reg b))) s t) ∧
    (∀ t, exec (.loadp b c) s = .next t → t.status = .running →
      t.mem.lenOf 0 ≤ (s.reg c).toNat →
      ∃ u, step t = .next u ∧ FaultTaken (.pcOutOfBounds (s.reg c)) t u)

/-- R184: CMOV then LOADP with a zero segment register is a branch: taken when `x[X]` is not 0. The
register `T` that CMOV writes is not the zero register `Z`. -/
def Obligations.BranchIdiom : Prop :=
  ∀ (s : State) (w v : Word) (rT rL rX rZ : RegIdx), s.status = .running →
    s.mem.peek 0 s.pc = some w → decode w = .cmov rT rL rX →
    s.mem.peek 0 (s.pc + 1) = some v → decode v = .loadp rZ rT →
    s.reg rZ = 0 → rT ≠ rZ →
    ∃ t u, step s = .next t ∧ step t = .next u ∧ u.status = .running ∧ MemoryKept s u ∧
      u.pc = (if s.reg rX = 0 then s.reg rT else s.reg rL)

/-! ## Input and output (44_io.md) -/

/-- R191, R190: OUT appends the byte; a value above 255 is fatal and emits nothing. -/
def Obligations.OutEmitsByte : Prop :=
  ∀ (c : RegIdx) (s : State),
    (encode (.out c)).toNat = 0xA0000000 + c.toNat ∧
    ((s.reg c).toNat ≤ 255 → ∃ t, exec (.out c) s = .next t ∧
      (∃ x : Byte, x.toNat = (s.reg c).toNat ∧ t.out = s.out ++ [x]) ∧
      RegistersKept s t ∧ MemoryKept s t ∧ t.status = s.status ∧ t.input = s.input ∧
      t.cfg = s.cfg ∧ t.pc = s.pc + 1) ∧
    (255 < (s.reg c).toNat → ∃ t, exec (.out c) s = .next t ∧
      FaultTaken (.outputOutOfRange (s.reg c)) s t)

/-- R194: IN consumes one byte and writes it zero-extended, or writes 2^32 - 1 at end-of-stream, which is
no fault. -/
def Obligations.InReadsByteOrEndOfStream : Prop :=
  ∀ (c : RegIdx) (s : State),
    (encode (.inp c)).toNat = 0xB0000000 + c.toNat ∧
    (∀ x rest, s.input.pending = x :: rest → ∃ t, exec (.inp c) s = .next t ∧
      (t.reg c).toNat = x.toNat ∧ t.input.pending = rest ∧ t.input.ended = s.input.ended ∧
      t.input.consumed = s.input.consumed + 1 ∧
      (∀ q, q ≠ c → t.reg q = s.reg q) ∧ MemoryKept s t ∧ t.status = s.status ∧
      t.out = s.out ∧ t.cfg = s.cfg ∧ t.pc = s.pc + 1) ∧
    (s.input.pending = [] → s.input.ended = true → ∃ t, exec (.inp c) s = .next t ∧
      (t.reg c).toNat = 2 ^ 32 - 1 ∧ OnlyRegister c s t ∧ t.pc = s.pc + 1)

/-- R193, D15 (a decision of the spec; log 7): a stream at end-of-stream stays there, through every step and
whatever the environment offers, and every IN then writes 2^32 - 1. -/
def Obligations.EndOfStreamStays : Prop :=
  (∀ s t : State, s.AtEndOfStream → step s = .next t → t.AtEndOfStream) ∧
  (∀ (s : State) (x : Byte), s.AtEndOfStream →
    (s.deliver x).AtEndOfStream ∧ s.endInput.AtEndOfStream) ∧
  (∀ (c : RegIdx) (s : State), s.AtEndOfStream → ∃ t, exec (.inp c) s = .next t ∧
    (t.reg c).toNat = 2 ^ 32 - 1 ∧ t.AtEndOfStream)

/-- R195: while IN waits, the state does not change; what the environment then delivers is what the
same IN reads (log 7). -/
def Obligations.InWaitsForTheEnvironment : Prop :=
  ∀ (c : RegIdx) (s : State), s.InputWaits →
    exec (.inp c) s = .next s ∧
    (∀ x, ∃ t, exec (.inp c) (s.deliver x) = .next t ∧ (t.reg c).toNat = x.toNat ∧
      t.pc = s.pc + 1 ∧ t.input.consumed = s.input.consumed + 1) ∧
    (∃ t, exec (.inp c) s.endInput = .next t ∧ (t.reg c).toNat = 2 ^ 32 - 1 ∧ t.pc = s.pc + 1)

/-- R36: a step only ever appends to `out`, at most one byte; nothing emitted is removed or
changed. -/
def Obligations.OutputOnlyGrows : Prop :=
  ∀ s t : State, step s = .next t → ∃ bs : List Byte, t.out = s.out ++ bs ∧ bs.length ≤ 1

/-- R197, R27, R38: from a `Running` state, an instruction other than OUT, IN and HALT that takes no fatal
condition changes nothing of what is observed from outside; and only HALT makes the run status
`Halted`. -/
def Obligations.OnlyIoIsObserved : Prop :=
  (∀ (i : Instr) (s t : State), s.status = .running → exec i s = .next t →
    (∀ c, i ≠ .out c) → (∀ c, i ≠ .inp c) → i ≠ .halt → (∀ c p, t.status ≠ .faulted c p) →
    t.observed = s.observed) ∧
  (∀ (i : Instr) (s t : State), s.status = .running → exec i s = .next t → t.status = .halted →
    i = .halt)

/-! ## Whole-machine rules (10_state.md, 20_memory.md) -/

/-- R21, R22: an instruction writes no register but the one the table names. -/
def Obligations.OnlyTheNamedRegisterIsWritten : Prop :=
  ∀ (i : Instr) (s t : State) (q : RegIdx), exec i s = .next t → regWritten i ≠ some q →
    t.reg q = s.reg q

/-- R21, R22: no register is read implicitly. Two states that differ only in registers the
instruction does not read have the same outcome, and its register gets the same value or is left
alone in both. -/
def Obligations.OnlyTheNamedRegistersAreRead : Prop :=
  ∀ (i : Instr) (s s' t t' : State), s'.pc = s.pc → s'.status = s.status → s'.mem = s.mem →
    s'.input = s.input → s'.out = s.out → s'.cfg = s.cfg →
    (∀ q ∈ regsRead i, s'.reg q = s.reg q) →
    exec i s = .next t → exec i s' = .next t' →
    t'.pc = t.pc ∧ t'.status = t.status ∧ t'.mem = t.mem ∧ t'.input = t.input ∧ t'.out = t.out ∧
    ∀ q, regWritten i = some q →
      t'.reg q = t.reg q ∨ (t.reg q = s.reg q ∧ t'.reg q = s'.reg q)

/-- R70: only SSTORE, MAP, UNMAP and LOADP change memory. -/
def Obligations.OnlyFourInstructionsChangeMemory : Prop :=
  ∀ (i : Instr) (s t : State), exec i s = .next t → writesMemory i = false → MemoryKept s t

/-- R32: `next_id` only grows, by at most 1 in a step. -/
def Obligations.IdentifierCounterOnlyGrows : Prop :=
  ∀ s t : State, step s = .next t →
    s.mem.nextId ≤ t.mem.nextId ∧ t.mem.nextId ≤ s.mem.nextId + 1

/-- R33 with R29, R30: the six invariants of the memory state, the canonical form of its tables and
the bound on lengths are kept by every step. -/
def Obligations.StepKeepsInvariants : Prop :=
  ∀ s t : State, s.Inv → step s = .next t → t.Inv

/-- R33: the invariants hold after reset. -/
def Obligations.InvariantsHoldAtReset : Prop := State.reset.Inv

/-- R33, R7: the invariants hold after reset with any program image, input stream and parameters in
their ranges, and arriving input keeps them. -/
def Obligations.InvariantsHoldAtBoot : Prop :=
  (∀ (cfg : Params) (image arrived : List Byte) (ended : Bool), cfg.valid →
    (State.boot cfg image arrived ended).Inv) ∧
  (∀ (s : State) (x : Byte), s.Inv → (s.deliver x).Inv ∧ s.endInput.Inv)

/-! ## Reset and loading (10_state.md R41, 70_reset_and_hazards.md) -/

/-- R41: every piece of state after reset, for any program image and input stream. R41 marks as derived the
clauses `Running`, no other segment live, free list empty, `next_id` 1 and output empty; the count of
consumed bytes is log 13. -/
def Obligations.ResetState : Prop :=
  ∀ (cfg : Params) (image : List Word) (arrived : List Byte) (ended : Bool),
    let s := State.bootWords cfg image arrived ended
    (∀ r, s.reg r = 0) ∧ s.pc = 0 ∧ s.status = .running ∧
    s.mem.live 0 = true ∧ s.mem.lenOf 0 = image.length ∧ (∀ o, s.mem.peek 0 o = image[o.toNat]?) ∧
    (∀ i, i ≠ 0 → s.mem.live i = false) ∧ s.mem.free = [] ∧ s.mem.nextId = 1 ∧
    s.input.pending = arrived ∧ s.input.ended = ended ∧ s.input.consumed = 0 ∧ s.out = []

/-- The model's own reset state is the reset state of R41 with the empty image (log 5), the empty
input stream (log 6) and the idealised parameters (log 3); its first step is PcOutOfBounds(0)
(R272). -/
def Obligations.ResetHasTheEmptyProgram : Prop :=
  State.reset = State.bootWords Params.idealised [] [] true ∧
  ∃ t, step State.reset = .next t ∧ FaultTaken (.pcOutOfBounds 0) State.reset t

/-- R273: a well-formed image becomes the Words of segment 0, big-endian; a partial trailing chunk or
more than IMAGE_WORDS_MAX Words is LoaderError, and no step happens. -/
def Obligations.LoaderReadsBigEndianOrRejects : Prop :=
  ∀ (cfg : Params) (image arrived : List Byte) (ended : Bool),
    (image.length % 4 = 0 → image.length / 4 ≤ cfg.imageWordsMax →
      ∃ ws : List Word, State.boot cfg image arrived ended = State.bootWords cfg ws arrived ended ∧
        ws.length = image.length / 4 ∧
        ∀ k (_ : k < ws.length) b0 b1 b2 b3, image[4 * k]? = some b0 → image[4 * k + 1]? = some b1 →
          image[4 * k + 2]? = some b2 → image[4 * k + 3]? = some b3 →
          ws[k].toNat = b0.toNat * 2 ^ 24 + b1.toNat * 2 ^ 16 + b2.toNat * 2 ^ 8 + b3.toNat) ∧
    (image.length % 4 ≠ 0 ∨ cfg.imageWordsMax < image.length / 4 →
      (∃ p, (State.boot cfg image arrived ended).status = .faulted .loaderError p ∧
        step (State.boot cfg image arrived ended) = .fault (.runFaulted .loaderError p)) ∧
      (State.boot cfg image arrived ended).out = [])

/-! ## What the host sees (60_exceptions.md) -/

/-- R257, R241: exit status 0 means `Halted` and nothing else; a fault's exit status is its code; the code
of each cause is the number of R241 (decision D11; log 21); causes with the same code have the same
diagnostic and class. -/
def Obligations.ExitStatusTellsTheOutcome : Prop :=
  (∀ r : RunStatus, r.exitStatus = some 0 ↔ r = .halted) ∧
  (∀ (c : Cause) p, (RunStatus.faulted c p).exitStatus = some c.code) ∧
  (∀ (x y : Word) (o : Option Word) (n m : Nat),
    (Cause.pcOutOfBounds x).code = 1 ∧ (Cause.invalidOpcode x y).code = 2 ∧
    (Cause.unmappedSegment x o).code = 3 ∧ (Cause.offsetOutOfBounds x y).code = 4 ∧
    (Cause.divideByZero x).code = 5 ∧ Cause.badUnmapZero.code = 6 ∧
    (Cause.badUnmapNotLive x).code = 7 ∧ (Cause.outputOutOfRange x).code = 8 ∧
    (Cause.resourceExhausted n).code = 9 ∧ Cause.loaderError.code = 10 ∧
    (Cause.bitfieldRange n m).code = 11) ∧
  (∀ c d : Cause, c.code = d.code → c.diagnostic = d.diagnostic ∧ c.faultClass = d.faultClass)

/-- R218: the status outputs show the run status; `cause` is 0 while not faulted and else the code, and
`fault_pc` the recorded offset. `fault_info` carries the recorded values, one in each half of the 64 wires,
in an order fixed for each cause code (log 22). -/
def Obligations.StatusOutputsShowTheOutcome : Prop :=
  (∀ s : State, s.statusOutputs.halted = true ↔ s.status = .halted) ∧
  (∀ s : State, s.statusOutputs.faulted = true ↔ ∃ c p, s.status = .faulted c p) ∧
  (∀ s : State, (∀ c p, s.status ≠ .faulted c p) → s.statusOutputs.cause = 0) ∧
  (∀ (s : State) c p, s.status = .faulted c p →
    s.statusOutputs.cause.toNat = c.code ∧ s.statusOutputs.faultPc = p) ∧
  ∃ firstHigh : Nat → Bool, ∀ (s : State) c p, s.status = .faulted c p →
    let upper := s.statusOutputs.faultInfo.toNat / 2 ^ 32
    let lower := s.statusOutputs.faultInfo.toNat % 2 ^ 32
    c.info.length ≤ 2 ∧
    (∀ v, c.info[0]? = some v → v < 2 ^ 32 → (if firstHigh c.code then upper else lower) = v) ∧
    (∀ v, c.info[1]? = some v → v < 2 ^ 32 → (if firstHigh c.code then lower else upper) = v)

/-! ## The blocks (45_hw_blocks.md) -/

/-- R207: the tagged result of R101 is read off the decoder block's outputs. -/
def Obligations.DecoderBlockGivesTheFields : Prop :=
  ∀ w, (decoderBlock w).tagged = decodeFields w

/-- R219, R201, R217: one instruction through the six blocks, with the port use of R205, gives the state that
the step of R129 gives, whatever the ports it does not use carry (log 23). That the blocks are taken per
instruction, without cycles and handshakes, is the model's choice (log 15). -/
def Obligations.BlocksComposeToTheStep : Prop :=
  ∀ s : State, s.Inv → s.status = .running → step s = .next (blockStep s)
end

