-- ==== Sys2Proof/Laws/Decode.lean ====
section
/-!
SUPPORT. The fields of a Word as numbers, and the decoder on the encoder's Words: what a proof about
encodings cites instead of unfolding the extractor.
-/

namespace Sys2Proof

theorem extract_toNat {w : Word} {width lsb : Nat} (h : width ≤ 32) :
    (extract w width lsb).toNat = w.toNat / 2 ^ lsb % 2 ^ width := by
  have h1 : w.toNat / 2 ^ lsb % 2 ^ width < 2 ^ width := Nat.mod_lt _ (Nat.two_pow_pos _)
  have h2 : 2 ^ width ≤ 2 ^ 32 := Nat.pow_le_pow_right (by decide) h
  simp only [extract, BitVec.toNat_ofNat]
  exact Nat.mod_eq_of_lt (h1.trans_le h2)

theorem fieldOp_toNat (w : Word) : (fieldOp w).toNat = w.toNat / 2 ^ 28 := by
  have := w.isLt
  simp only [fieldOp, BitVec.toNat_setWidth, extract_toNat (show 4 ≤ 32 by decide)]
  omega

theorem fieldA_toNat (w : Word) : (fieldA w).toNat = w.toNat / 2 ^ 6 % 8 := by
  simp only [fieldA, BitVec.toNat_setWidth, extract_toNat (show 3 ≤ 32 by decide)]
  omega

theorem fieldB_toNat (w : Word) : (fieldB w).toNat = w.toNat / 2 ^ 3 % 8 := by
  simp only [fieldB, BitVec.toNat_setWidth, extract_toNat (show 3 ≤ 32 by decide)]
  omega

theorem fieldC_toNat (w : Word) : (fieldC w).toNat = w.toNat % 8 := by
  simp only [fieldC, BitVec.toNat_setWidth, extract_toNat (show 3 ≤ 32 by decide)]
  omega

theorem fieldReg_toNat (w : Word) : (fieldReg w).toNat = w.toNat / 2 ^ 25 % 8 := by
  simp only [fieldReg, BitVec.toNat_setWidth, extract_toNat (show 3 ≤ 32 by decide)]
  omega

theorem fieldValue_toNat (w : Word) : (fieldValue w).toNat = w.toNat % 2 ^ 25 := by
  simp only [fieldValue, BitVec.toNat_setWidth, extract_toNat (show 25 ≤ 32 by decide)]
  omega

/-- The number of a Standard Word (R98). -/
theorem standardWord_toNat {op : Nat} (h : op < 16) (a b c : RegIdx) :
    (standardWord op a b c).toNat = op * 2 ^ 28 + a.toNat * 64 + b.toNat * 8 + c.toNat := by
  have ha := a.isLt
  have hb := b.isLt
  have hc := c.isLt
  simp only [standardWord, BitVec.toNat_ofNat]
  omega

/-- The number of a LOADV Word (R99). -/
theorem encode_loadv_toNat (r : RegIdx) (v : Imm25) :
    (encode (.loadv r v)).toNat = 0xD0000000 + r.toNat * 2 ^ 25 + v.toNat := by
  have hr := r.isLt
  have hv := v.isLt
  simp only [encode, BitVec.toNat_ofNat]
  omega

/-- The fields of a Standard Word (R98, R101). -/
theorem decodeFields_standardWord {op : Nat} (h : op ≤ 12) (a b c : RegIdx) :
    decodeFields (standardWord op a b c) = .standard (BitVec.ofNat 4 op) a b c := by
  have ha := a.isLt
  have hb := b.isLt
  have hc := c.isLt
  have hw := standardWord_toNat (show op < 16 by omega) a b c
  have hop : fieldOp (standardWord op a b c) = BitVec.ofNat 4 op := by
    apply BitVec.eq_of_toNat_eq
    rw [fieldOp_toNat, hw, BitVec.toNat_ofNat]
    omega
  have h1 : fieldA (standardWord op a b c) = a := by
    apply BitVec.eq_of_toNat_eq; rw [fieldA_toNat, hw]; omega
  have h2 : fieldB (standardWord op a b c) = b := by
    apply BitVec.eq_of_toNat_eq; rw [fieldB_toNat, hw]; omega
  have h3 : fieldC (standardWord op a b c) = c := by
    apply BitVec.eq_of_toNat_eq; rw [fieldC_toNat, hw]; omega
  have h4 : (BitVec.ofNat 4 op).toNat ≤ 12 := by rw [BitVec.toNat_ofNat]; omega
  simp only [decodeFields, hop, h1, h2, h3, h4, if_true]

/-- A Word of the Standard layout decodes by its opcode (R103). -/
theorem decode_of_fields {w : Word} {op : BitVec 4} {a b c : RegIdx}
    (h : decodeFields w = .standard op a b c) : decode w = standardInstr w op a b c := by
  unfold decode
  rw [h]

/-- The decoder on a Standard Word selects the operation by `op` alone (R103). -/
theorem decode_standardWord {op : Nat} (h : op ≤ 12) (a b c : RegIdx) :
    decode (standardWord op a b c) =
      standardInstr (standardWord op a b c) (BitVec.ofNat 4 op) a b c :=
  decode_of_fields (decodeFields_standardWord h a b c)

/-- The opcode decides the shape of `decode`'s answer (R100, R103, R104). -/
theorem decode_cases (w : Word) :
    (w.toNat / 2 ^ 28 ≤ 12 ∧
      decode w = standardInstr w (fieldOp w) (fieldA w) (fieldB w) (fieldC w)) ∨
    (w.toNat / 2 ^ 28 = 13 ∧ decode w = .loadv (fieldReg w) (fieldValue w)) ∨
    (w.toNat / 2 ^ 28 = 14 ∧ decode w = .invalid14 w) ∨
    (w.toNat / 2 ^ 28 = 15 ∧ decode w = .invalid15 w) := by
  have hn : w.toNat / 2 ^ 28 ≤ 15 := by have := w.isLt; omega
  simp only [decode, decodeFields, fieldOp_toNat]
  generalize w.toNat / 2 ^ 28 = n at hn
  by_cases h1 : n ≤ 12
  · left; simp only [h1, if_true, true_and]
  · have h2 : n = 13 ∨ n = 14 ∨ n = 15 := by omega
    rcases h2 with rfl | rfl | rfl <;> simp

end Sys2Proof
end

