-- ==== Sys2Proof/Laws/Memory.lean ====
section
/-!
SUPPORT. Laws of the tables memory is held in, and of the segment manager's operations: read after
write, what each operation answers, and that each keeps the canonical form.
-/

namespace Sys2Proof.Machine

/-! ## Tables -/

section Table
variable {α : Type}

@[simp] theorem tableGet_nil (i : Nat) : tableGet ([] : List (Nat × α)) i = none := rfl

theorem tableGet_cons (k : Nat) (v : α) (t : List (Nat × α)) (i : Nat) :
    tableGet ((k, v) :: t) i = if k = i then some v else tableGet t i := rfl

/-- Read after put: the value put, at its key; every other key as before. -/
theorem tableGet_put (t : List (Nat × α)) (i : Nat) (v : α) (j : Nat) :
    tableGet (tablePut t i v) j = if j = i then some v else tableGet t j := by
  induction t with
  | nil => simp only [tablePut, tableGet]; split_ifs <;> simp_all
  | cons e t ih =>
    obtain ⟨k, w⟩ := e
    simp only [tablePut]
    split_ifs with h1 h2 <;> simp only [tableGet_cons, ih] <;> split_ifs <;> first | rfl | omega

/-- Read after delete. -/
theorem tableGet_del (t : List (Nat × α)) (i j : Nat) :
    tableGet (tableDel t i) j = if j = i then none else tableGet t j := by
  induction t with
  | nil => simp [tableDel]
  | cons e t ih =>
    obtain ⟨k, w⟩ := e
    simp only [tableDel]
    split_ifs with h1 h2 <;> simp only [tableGet_cons, ih] <;> split_ifs <;> first | rfl | omega

/-- A listed value is a member. -/
theorem mem_of_tableGet {t : List (Nat × α)} {i : Nat} {v : α} (h : tableGet t i = some v) :
    (i, v) ∈ t := by
  induction t with
  | nil => simp at h
  | cons e t ih =>
    obtain ⟨k, w⟩ := e
    rw [tableGet_cons] at h
    split_ifs at h with h1
    · simp_all
    · exact List.mem_cons_of_mem _ (ih h)

/-- In a rising table, membership is being listed. -/
theorem tableGet_of_mem {t : List (Nat × α)} (hr : tableRising t) {i : Nat} {v : α}
    (h : (i, v) ∈ t) : tableGet t i = some v := by
  induction t with
  | nil => simp at h
  | cons e t ih =>
    obtain ⟨k, w⟩ := e
    obtain ⟨h1, h2⟩ := List.pairwise_cons.mp hr
    rw [tableGet_cons]
    rcases List.mem_cons.mp h with h | h
    · simp_all
    · have := h1 _ h
      rw [if_neg (by simp only at this; omega), ih h2 h]

/-- An entry of a table after a put is the new one, or an old one. -/
theorem mem_tablePut {t : List (Nat × α)} {i : Nat} {v : α} {e : Nat × α}
    (h : e ∈ tablePut t i v) : e = (i, v) ∨ e ∈ t := by
  induction t with
  | nil => simpa [tablePut] using h
  | cons f t ih =>
    obtain ⟨k, w⟩ := f
    simp only [tablePut] at h
    split_ifs at h <;> simp only [List.mem_cons] at h ⊢ <;> tauto

/-- An entry of a table after a delete is an old one. -/
theorem mem_tableDel {t : List (Nat × α)} {i : Nat} {e : Nat × α} (h : e ∈ tableDel t i) :
    e ∈ t := by
  induction t with
  | nil => exact h
  | cons f t ih =>
    obtain ⟨k, w⟩ := f
    simp only [tableDel] at h
    split_ifs at h <;> simp only [List.mem_cons] at h ⊢ <;> tauto

/-- Put keeps the keys rising. -/
theorem tablePut_rising {t : List (Nat × α)} (h : tableRising t) (i : Nat) (v : α) :
    tableRising (tablePut t i v) := by
  induction t with
  | nil => simp [tablePut, tableRising]
  | cons f t ih =>
    obtain ⟨k, w⟩ := f
    obtain ⟨h1, h2⟩ := List.pairwise_cons.mp h
    simp only [tablePut]
    split_ifs with c1 c2
    · refine List.pairwise_cons.mpr ⟨fun e he => ?_, h⟩
      rcases List.mem_cons.mp he with rfl | he
      · exact c1
      · exact c1.trans (h1 e he)
    · subst c2
      exact List.pairwise_cons.mpr ⟨h1, h2⟩
    · refine List.pairwise_cons.mpr ⟨fun e he => ?_, ih h2⟩
      rcases mem_tablePut he with rfl | he
      · simp only; omega
      · exact h1 e he

/-- Delete keeps the keys rising. -/
theorem tableDel_rising {t : List (Nat × α)} (h : tableRising t) (i : Nat) :
    tableRising (tableDel t i) := by
  induction t with
  | nil => exact h
  | cons f t ih =>
    obtain ⟨k, w⟩ := f
    obtain ⟨h1, h2⟩ := List.pairwise_cons.mp h
    simp only [tableDel]
    split_ifs
    · exact ih h2
    · exact List.pairwise_cons.mpr ⟨fun e he => h1 e (mem_tableDel he), ih h2⟩

/-- Nothing is listed at a deleted key. -/
theorem not_mem_tableDel {t : List (Nat × α)} {i : Nat} {e : Nat × α} (h : e ∈ tableDel t i) :
    e.1 ≠ i := by
  induction t with
  | nil => simp [tableDel] at h
  | cons f t ih =>
    obtain ⟨k, w⟩ := f
    simp only [tableDel] at h
    split_ifs at h with c
    · exact ih h
    · rcases List.mem_cons.mp h with rfl | h
      · exact c
      · exact ih h

end Table

/-! ## Segments -/

@[simp] theorem zeros_len (n : Nat) : (Segment.zeros n).len = n := rfl

@[simp] theorem zeros_read (n o : Nat) : (Segment.zeros n).read o = 0 := rfl

theorem zeros_wf (n : Nat) : (Segment.zeros n).wf := by simp [Segment.zeros, Segment.wf, tableRising]

@[simp] theorem write_len (g : Segment) (o : Nat) (v : Word) : (g.write o v).len = g.len := rfl

/-- Read after write in one segment. -/
theorem read_write (g : Segment) (o : Nat) (v : Word) (p : Nat) :
    (g.write o v).read p = if p = o then v else g.read p := by
  simp only [Segment.read, Segment.write]
  split_ifs with h1 h2 h2 <;> simp_all [tableGet_put, tableGet_del]

/-- A write below the length keeps a segment's canonical form. -/
theorem write_wf {g : Segment} (h : g.wf) {o : Nat} (ho : o < g.len) (v : Word) :
    (g.write o v).wf := by
  simp only [Segment.wf, Segment.write] at h ⊢
  split_ifs with hv
  · exact ⟨tableDel_rising h.1 o, fun c hc => h.2 c (mem_tableDel hc)⟩
  · refine ⟨tablePut_rising h.1 o v, fun c hc => ?_⟩
    rcases mem_tablePut hc with rfl | hc
    · exact ⟨ho, hv⟩
    · exact h.2 c hc

theorem cellsFrom_mem {ws : List Word} {i : Nat} {c : Cell} (h : c ∈ cellsFrom i ws) :
    i ≤ c.1 ∧ c.1 < i + ws.length ∧ c.2 ≠ 0 := by
  induction ws generalizing i with
  | nil => simp [cellsFrom] at h
  | cons w ws ih =>
    simp only [cellsFrom] at h
    simp only [List.length_cons]
    split_ifs at h with hw
    · obtain ⟨a, b, d⟩ := ih h
      exact ⟨by omega, by omega, d⟩
    · rcases List.mem_cons.mp h with rfl | h
      · exact ⟨Nat.le_refl _, by omega, hw⟩
      · obtain ⟨a, b, d⟩ := ih h
        exact ⟨by omega, by omega, d⟩

theorem cellsFrom_rising (ws : List Word) (i : Nat) : tableRising (cellsFrom i ws) := by
  induction ws generalizing i with
  | nil => simp [cellsFrom, tableRising]
  | cons w ws ih =>
    simp only [cellsFrom]
    split_ifs
    · exact ih _
    · exact List.pairwise_cons.mpr ⟨fun e he => by have := (cellsFrom_mem he).1; simp only; omega, ih _⟩

theorem tableGet_cellsFrom (ws : List Word) (i j : Nat) :
    (tableGet (cellsFrom i ws) j).getD 0 = if i ≤ j then ws.getD (j - i) 0 else 0 := by
  induction ws generalizing i with
  | nil => simp [cellsFrom]
  | cons w ws ih =>
    have tail : i ≤ j → i ≠ j → (w :: ws).getD (j - i) 0 = ws.getD (j - (i + 1)) 0 := by
      intro h1 h2
      obtain ⟨k, hk⟩ : ∃ k, j - i = k + 1 := ⟨j - i - 1, by omega⟩
      rw [hk, List.getD_cons_succ]; congr 1; omega
    simp only [cellsFrom]
    split_ifs with hw hij hij
    · rw [ih]
      by_cases h : i = j
      · subst h; simp [hw]
      · rw [if_pos (by omega), tail hij h]
    · rw [ih, if_neg (by omega)]
    · rw [tableGet_cons]
      by_cases h : i = j
      · subst h; simp
      · rw [if_neg h, ih, if_pos (by omega), tail hij h]
    · rw [tableGet_cons, if_neg (by omega), ih, if_neg (by omega)]

theorem ofWords_wf (ws : List Word) : (Segment.ofWords ws).wf :=
  ⟨cellsFrom_rising ws 0, fun _ hc => ⟨by have := (cellsFrom_mem hc).2.1; simpa [Segment.ofWords] using this,
    (cellsFrom_mem hc).2.2⟩⟩

/-- The segment of a list of Words holds the list's Word at each offset. -/
theorem ofWords_read (ws : List Word) (i : Nat) : (Segment.ofWords ws).read i = ws.getD i 0 := by
  simpa only [Segment.read, Segment.ofWords, Nat.zero_le, if_true, Nat.sub_zero] using
    tableGet_cellsFrom ws 0 i

/-! ## The segment manager: what each operation answers -/

/-- A read of one Word answers a value exactly when the segment is live and the offset in bounds. -/
theorem peek_eq_some {m : Memory} {s o v : Word} :
    m.peek s o = some v ↔ ∃ g, m.find s = some g ∧ o.toNat < g.len ∧ g.read o.toNat = v := by
  unfold Memory.peek
  cases m.find s with
  | none => simp
  | some g => simp

theorem load_ok {m : Memory} {s o v : Word} : m.load s o = .ok v ↔ m.peek s o = some v := by
  unfold Memory.load Memory.peek
  cases m.find s with
  | none => simp
  | some g => simp only; split_ifs <;> simp

theorem load_error {m : Memory} {s o : Word} {c : Cause} : m.load s o = .error c ↔
    (m.find s = none ∧ c = .unmappedSegment s (some o)) ∨
      (∃ g, m.find s = some g ∧ g.len ≤ o.toNat ∧ c = .offsetOutOfBounds s o) := by
  unfold Memory.load
  cases m.find s with
  | none => simp [eq_comm]
  | some g => simp only; split_ifs with h <;> simp [eq_comm] <;> omega

theorem store_ok {m m' : Memory} {s o v : Word} : m.store s o v = .ok m' ↔
    ∃ g, m.find s = some g ∧ o.toNat < g.len ∧
      m' = { m with segs := tablePut m.segs s.toNat (g.write o.toNat v) } := by
  unfold Memory.store
  cases m.find s with
  | none => simp
  | some g => simp only; split_ifs with h <;> simp [h, eq_comm]

theorem store_error {m : Memory} {s o v : Word} {c : Cause} : m.store s o v = .error c ↔
    (m.find s = none ∧ c = .unmappedSegment s (some o)) ∨
      (∃ g, m.find s = some g ∧ g.len ≤ o.toNat ∧ c = .offsetOutOfBounds s o) := by
  unfold Memory.store
  cases m.find s with
  | none => simp [eq_comm]
  | some g => simp only; split_ifs with h <;> simp [eq_comm] <;> omega

theorem unmap_ok {m m' : Memory} {s : Word} : m.unmap s = .ok m' ↔
    s ≠ 0 ∧ m.live s = true ∧
      m' = { m with segs := tableDel m.segs s.toNat, free := m.free ++ [s.toNat] } := by
  unfold Memory.unmap
  by_cases h1 : s = 0
  · simp only [if_true, reduceCtorEq, ne_eq, h1, not_true_eq_false, false_and]
  · by_cases h2 : m.live s = true
    · simp only [if_false, if_true, Except.ok.injEq, ne_eq, h1, not_false_eq_true, h2, true_and]
      exact eq_comm
    · simp only [if_false, h1, reduceCtorEq, h2, false_and, and_false, Bool.false_eq_true]

theorem unmap_error {m : Memory} {s : Word} {c : Cause} : m.unmap s = .error c ↔
    (s = 0 ∧ c = .badUnmapZero) ∨ (s ≠ 0 ∧ m.live s = false ∧ c = .badUnmapNotLive s) := by
  unfold Memory.unmap
  by_cases h1 : s = 0
  · simp only [if_true, Except.error.injEq, ne_eq, h1, not_true_eq_false, false_and, or_false,
      true_and]
    exact eq_comm
  · by_cases h2 : m.live s = true
    · simp only [if_false, if_true, reduceCtorEq, h1, h2, false_and, and_false, or_false,
        Bool.true_eq_false]
    · simp only [if_false, Except.error.injEq, h1, ne_eq, not_false_eq_true,
        Bool.eq_false_iff.mpr h2, true_and, false_and, false_or, Bool.false_eq_true, if_false]
      exact eq_comm

theorem map_ok {cfg : Params} {m : Memory} {n : Word} {r : Memory × Nat} :
    m.map cfg n = .ok r ↔ ∃ s next, m.chooseId cfg = some (s, next) ∧
      overCapacity cfg (m.wordsInUse + n.toNat) = false ∧
      r = ({ segs := tablePut m.segs s (Segment.zeros n.toNat)
             free := m.free.filter fun t => t ≠ s
             nextId := next }, s) := by
  unfold Memory.map
  rcases m.chooseId cfg with _ | ⟨s, next⟩
  · simp only [reduceCtorEq, false_and, exists_false]
  · by_cases h : overCapacity cfg (m.wordsInUse + n.toNat) = true
    · simp [h]
    · simp only [h, Bool.false_eq_true, if_false, Except.ok.injEq, Option.some.injEq, Prod.mk.injEq,
        true_and]
      constructor
      · rintro rfl
        exact ⟨s, next, ⟨rfl, rfl⟩, rfl⟩
      · rintro ⟨_, _, ⟨rfl, rfl⟩, rfl⟩
        rfl

theorem map_error {cfg : Params} {m : Memory} {n : Word} {c : Cause} :
    m.map cfg n = .error c ↔ c = .resourceExhausted n.toNat ∧
      (m.chooseId cfg = none ∨ overCapacity cfg (m.wordsInUse + n.toNat) = true) := by
  unfold Memory.map
  rcases m.chooseId cfg with _ | ⟨s, next⟩
  · simp only [Except.error.injEq, true_or, and_true]
    exact eq_comm
  · by_cases h : overCapacity cfg (m.wordsInUse + n.toNat) = true
    · simp only [h, if_true, Except.error.injEq, or_true, and_true]
      exact eq_comm
    · simp [h]

/-- A picked identifier is a member of the free list, whatever the policy. -/
theorem pickFree_mem {p : FreePick} {free : List Nat} {s : Nat} (h : pickFree p free = some s) :
    s ∈ free := by
  cases p with
  | lifo => exact List.mem_of_getLast? h
  | anyChoice => exact List.mem_of_getElem? h

/-- Nothing is picked only from an empty free list. -/
theorem pickFree_none {p : FreePick} {free : List Nat} : pickFree p free = none ↔ free = [] := by
  cases p with
  | lifo => simp [pickFree]
  | anyChoice =>
    cases free with
    | nil => simp [pickFree]
    | cons a t =>
      have := Nat.mod_lt (Config.freePick (a :: t)) (show 0 < (a :: t).length by simp)
      simp only [pickFree, reduceCtorEq, iff_false]
      rw [List.getElem?_eq_getElem this]
      simp

/-- The two sources of an identifier (R51, R214). -/
theorem chooseId_some {cfg : Params} {m : Memory} {s next : Nat} :
    m.chooseId cfg = some (s, next) ↔
      (pickFree cfg.freePick m.free = some s ∧ next = m.nextId) ∨
      (m.free = [] ∧ m.nextId ≠ cfg.maxSegments ∧ s = m.nextId ∧ next = m.nextId + 1) := by
  unfold Memory.chooseId
  cases h : pickFree cfg.freePick m.free with
  | none =>
    have h0 := pickFree_none.mp h
    by_cases h1 : m.nextId = cfg.maxSegments
    · simp [h1]
    · simp only [if_false, Option.some.injEq, Prod.mk.injEq, reduceCtorEq, false_and, h0, ne_eq, h1,
        not_false_eq_true, true_and, false_or]
      exact and_congr eq_comm eq_comm
  | some x =>
    have h0 : m.free ≠ [] := fun h0 => by simp [pickFree_none.mpr h0] at h
    simp only [Option.some.injEq, Prod.mk.injEq, h0, false_and, or_false]
    exact and_congr Iff.rfl eq_comm

theorem replaceZero_ok {cfg : Params} {m m' : Memory} {s : Word} : m.replaceZero cfg s = .ok m' ↔
    (s = 0 ∧ m' = m) ∨ (s ≠ 0 ∧ ∃ g, m.find s = some g ∧
      overCapacity cfg (m.wordsInUse - m.lenOf 0 + g.len) = false ∧
      m' = { m with segs := tablePut m.segs 0 g }) := by
  unfold Memory.replaceZero
  by_cases h0 : s = 0
  · simp only [if_true, Except.ok.injEq, h0, true_and, ne_eq, not_true_eq_false, false_and, or_false]
    exact eq_comm
  · simp only [if_false, h0, false_and, ne_eq, not_false_eq_true, true_and, false_or]
    cases m.find s with
    | none => simp only [reduceCtorEq, false_and, exists_false]
    | some g =>
      by_cases h : overCapacity cfg (m.wordsInUse - m.lenOf 0 + g.len) = true
      · simp only [h, if_true, reduceCtorEq, Option.some.injEq, false_iff, not_exists, not_and]
        rintro _ rfl h'
        exact absurd (h.symm.trans h') (by decide)
      · simp only [h, Bool.false_eq_true, if_false, Except.ok.injEq, Option.some.injEq]
        constructor
        · rintro rfl
          exact ⟨g, rfl, Bool.eq_false_iff.mpr h, rfl⟩
        · rintro ⟨_, rfl, -, rfl⟩
          rfl

theorem replaceZero_error {cfg : Params} {m : Memory} {s : Word} {c : Cause} :
    m.replaceZero cfg s = .error c ↔ s ≠ 0 ∧
      ((m.find s = none ∧ c = .unmappedSegment s none) ∨
       (∃ g, m.find s = some g ∧ overCapacity cfg (m.wordsInUse - m.lenOf 0 + g.len) = true ∧
         c = .resourceExhausted g.len)) := by
  unfold Memory.replaceZero
  by_cases h0 : s = 0
  · simp only [if_true, reduceCtorEq, h0, ne_eq, not_true_eq_false, false_and]
  · simp only [if_false, h0, ne_eq, not_false_eq_true, true_and]
    cases m.find s with
    | none =>
      simp only [Except.error.injEq, true_and, reduceCtorEq, false_and, exists_false, or_false]
      exact eq_comm
    | some g =>
      simp only [reduceCtorEq, false_and, false_or, Option.some.injEq]
      by_cases h : overCapacity cfg (m.wordsInUse - m.lenOf 0 + g.len) = true
      · simp only [h, if_true, Except.error.injEq]
        constructor
        · rintro rfl
          exact ⟨g, rfl, h, rfl⟩
        · rintro ⟨_, rfl, -, rfl⟩
          rfl
      · simp only [h, Bool.false_eq_true, if_false, reduceCtorEq, false_iff, not_exists, not_and]
        rintro _ rfl h'
        exact absurd h' h

/-! ## Every operation keeps the canonical form -/

theorem put_wf {m : Memory} (h : m.wf) {g : Segment} (hg : g.wf) (i : Nat) (free : List Nat)
    (next : Nat) : Memory.wf { segs := tablePut m.segs i g, free := free, nextId := next } := by
  refine ⟨tablePut_rising h.1 i g, fun e he => ?_⟩
  rcases mem_tablePut he with rfl | he
  · exact hg
  · exact h.2 e he

theorem find_wf {m : Memory} (h : m.wf) {s : Word} {g : Segment} (hg : m.find s = some g) : g.wf :=
  h.2 _ (mem_of_tableGet hg)

theorem map_wf {cfg : Params} {m : Memory} (h : m.wf) {n : Word} {r : Memory × Nat}
    (hr : m.map cfg n = .ok r) : r.1.wf := by
  obtain ⟨s, next, -, -, rfl⟩ := map_ok.mp hr
  exact put_wf h (zeros_wf _) s _ next

theorem unmap_wf {m m' : Memory} (h : m.wf) {s : Word} (hm : m.unmap s = .ok m') : m'.wf := by
  obtain ⟨-, -, rfl⟩ := unmap_ok.mp hm
  exact ⟨tableDel_rising h.1 _, fun e he => h.2 e (mem_tableDel he)⟩

theorem store_wf {m m' : Memory} (h : m.wf) {s o v : Word} (hm : m.store s o v = .ok m') :
    m'.wf := by
  obtain ⟨g, hg, ho, rfl⟩ := store_ok.mp hm
  exact put_wf h (write_wf (find_wf h hg) ho v) _ _ _

theorem replaceZero_wf {cfg : Params} {m m' : Memory} (h : m.wf) {s : Word}
    (hm : m.replaceZero cfg s = .ok m') : m'.wf := by
  rcases replaceZero_ok.mp hm with ⟨-, rfl⟩ | ⟨-, g, hg, -, rfl⟩
  · exact h
  · exact put_wf h (find_wf h hg) _ _ _

theorem ofWords_memory_wf (ws : List Word) :
    Memory.wf { segs := [(0, Segment.ofWords ws)], free := [], nextId := 1 } :=
  ⟨by simp [tableRising], fun e he => by
    obtain rfl := List.mem_singleton.mp he
    exact ofWords_wf ws⟩

/-- Memory after reset is in canonical form. -/
theorem reset_memory_wf : State.reset.mem.wf := ofWords_memory_wf []

/-! ## Reads after operations -/

/-- Read of one Word after a store to a live, in-bounds Word. -/
theorem find_store {m m' : Memory} {s o v : Word} {g : Segment} (hg : m.find s = some g)
    (hm : m.store s o v = .ok m') (t : Word) :
    m'.find t = if t = s then some (g.write o.toNat v) else m.find t := by
  obtain ⟨g', hg', ho, rfl⟩ := store_ok.mp hm
  obtain rfl : g = g' := by simpa [hg] using hg'
  simp only [Memory.find, tableGet_put, BitVec.toNat_inj]

theorem peek_store {m m' : Memory} {s o v : Word} (hm : m.store s o v = .ok m') (t p : Word) :
    m'.peek t p = if t = s ∧ p = o then some v else m.peek t p := by
  obtain ⟨g, hg, ho, -⟩ := store_ok.mp hm
  simp only [Memory.peek, find_store hg hm]
  by_cases ht : t = s
  · subst ht
    simp only [if_true, hg, write_len, read_write, true_and, BitVec.toNat_inj]
    by_cases hp : p = o
    · subst hp; simp [ho]
    · simp [hp]
  · simp [ht]

end Sys2Proof.Machine
end

