-- ==== Sys2Proof/Laws/State.lean ====
section
/-!
SUPPORT. What each state update does to each field, and the register file's read-after-write laws.
-/

namespace Sys2Proof.Machine

@[simp] theorem setReg_pc (s : State) (r : RegIdx) (v : Word) : (s.setReg r v).pc = s.pc := rfl
@[simp] theorem setReg_status (s : State) (r : RegIdx) (v : Word) : (s.setReg r v).status = s.status := rfl
@[simp] theorem setReg_mem (s : State) (r : RegIdx) (v : Word) : (s.setReg r v).mem = s.mem := rfl
@[simp] theorem setReg_input (s : State) (r : RegIdx) (v : Word) : (s.setReg r v).input = s.input := rfl
@[simp] theorem setReg_out (s : State) (r : RegIdx) (v : Word) : (s.setReg r v).out = s.out := rfl
@[simp] theorem setReg_cfg (s : State) (r : RegIdx) (v : Word) : (s.setReg r v).cfg = s.cfg := rfl

@[simp] theorem setPc_regs (s : State) (p : Word) : (s.setPc p).regs = s.regs := rfl
@[simp] theorem setPc_pc (s : State) (p : Word) : (s.setPc p).pc = p := rfl
@[simp] theorem setPc_status (s : State) (p : Word) : (s.setPc p).status = s.status := rfl
@[simp] theorem setPc_mem (s : State) (p : Word) : (s.setPc p).mem = s.mem := rfl
@[simp] theorem setPc_input (s : State) (p : Word) : (s.setPc p).input = s.input := rfl
@[simp] theorem setPc_out (s : State) (p : Word) : (s.setPc p).out = s.out := rfl
@[simp] theorem setPc_cfg (s : State) (p : Word) : (s.setPc p).cfg = s.cfg := rfl

@[simp] theorem advance_regs (s : State) : (s.advance).regs = s.regs := rfl
@[simp] theorem advance_pc (s : State) : (s.advance).pc = s.pc + 1 := rfl
@[simp] theorem advance_status (s : State) : (s.advance).status = s.status := rfl
@[simp] theorem advance_mem (s : State) : (s.advance).mem = s.mem := rfl
@[simp] theorem advance_input (s : State) : (s.advance).input = s.input := rfl
@[simp] theorem advance_out (s : State) : (s.advance).out = s.out := rfl
@[simp] theorem advance_cfg (s : State) : (s.advance).cfg = s.cfg := rfl

@[simp] theorem setMem_regs (s : State) (m : Memory) : (s.setMem m).regs = s.regs := rfl
@[simp] theorem setMem_pc (s : State) (m : Memory) : (s.setMem m).pc = s.pc := rfl
@[simp] theorem setMem_status (s : State) (m : Memory) : (s.setMem m).status = s.status := rfl
@[simp] theorem setMem_mem (s : State) (m : Memory) : (s.setMem m).mem = m := rfl
@[simp] theorem setMem_input (s : State) (m : Memory) : (s.setMem m).input = s.input := rfl
@[simp] theorem setMem_out (s : State) (m : Memory) : (s.setMem m).out = s.out := rfl
@[simp] theorem setMem_cfg (s : State) (m : Memory) : (s.setMem m).cfg = s.cfg := rfl

@[simp] theorem setInput_regs (s : State) (i : InStream) : (s.setInput i).regs = s.regs := rfl
@[simp] theorem setInput_pc (s : State) (i : InStream) : (s.setInput i).pc = s.pc := rfl
@[simp] theorem setInput_status (s : State) (i : InStream) : (s.setInput i).status = s.status := rfl
@[simp] theorem setInput_mem (s : State) (i : InStream) : (s.setInput i).mem = s.mem := rfl
@[simp] theorem setInput_input (s : State) (i : InStream) : (s.setInput i).input = i := rfl
@[simp] theorem setInput_out (s : State) (i : InStream) : (s.setInput i).out = s.out := rfl
@[simp] theorem setInput_cfg (s : State) (i : InStream) : (s.setInput i).cfg = s.cfg := rfl

@[simp] theorem emit_regs (s : State) (b : Byte) : (s.emit b).regs = s.regs := rfl
@[simp] theorem emit_pc (s : State) (b : Byte) : (s.emit b).pc = s.pc := rfl
@[simp] theorem emit_status (s : State) (b : Byte) : (s.emit b).status = s.status := rfl
@[simp] theorem emit_mem (s : State) (b : Byte) : (s.emit b).mem = s.mem := rfl
@[simp] theorem emit_input (s : State) (b : Byte) : (s.emit b).input = s.input := rfl
@[simp] theorem emit_out (s : State) (b : Byte) : (s.emit b).out = s.out ++ [b] := rfl
@[simp] theorem emit_cfg (s : State) (b : Byte) : (s.emit b).cfg = s.cfg := rfl

@[simp] theorem setStatus_regs (s : State) (st : RunStatus) : (s.setStatus st).regs = s.regs := rfl
@[simp] theorem setStatus_pc (s : State) (st : RunStatus) : (s.setStatus st).pc = s.pc := rfl
@[simp] theorem setStatus_status (s : State) (st : RunStatus) : (s.setStatus st).status = st := rfl
@[simp] theorem setStatus_mem (s : State) (st : RunStatus) : (s.setStatus st).mem = s.mem := rfl
@[simp] theorem setStatus_input (s : State) (st : RunStatus) : (s.setStatus st).input = s.input := rfl
@[simp] theorem setStatus_out (s : State) (st : RunStatus) : (s.setStatus st).out = s.out := rfl
@[simp] theorem setStatus_cfg (s : State) (st : RunStatus) : (s.setStatus st).cfg = s.cfg := rfl

@[simp] theorem raise_regs (s : State) (c : Cause) : (s.raise c).regs = s.regs := rfl
@[simp] theorem raise_pc (s : State) (c : Cause) : (s.raise c).pc = s.pc := rfl
@[simp] theorem raise_status (s : State) (c : Cause) : (s.raise c).status = .faulted c s.pc := rfl
@[simp] theorem raise_mem (s : State) (c : Cause) : (s.raise c).mem = s.mem := rfl
@[simp] theorem raise_input (s : State) (c : Cause) : (s.raise c).input = s.input := rfl
@[simp] theorem raise_out (s : State) (c : Cause) : (s.raise c).out = s.out := rfl
@[simp] theorem raise_cfg (s : State) (c : Cause) : (s.raise c).cfg = s.cfg := rfl

@[simp] theorem retireReg_pc (s : State) (r : RegIdx) (v : Word) : (s.retireReg r v).pc = s.pc + 1 := rfl
@[simp] theorem retireReg_status (s : State) (r : RegIdx) (v : Word) : (s.retireReg r v).status = s.status := rfl
@[simp] theorem retireReg_mem (s : State) (r : RegIdx) (v : Word) : (s.retireReg r v).mem = s.mem := rfl
@[simp] theorem retireReg_input (s : State) (r : RegIdx) (v : Word) : (s.retireReg r v).input = s.input := rfl
@[simp] theorem retireReg_out (s : State) (r : RegIdx) (v : Word) : (s.retireReg r v).out = s.out := rfl
@[simp] theorem retireReg_cfg (s : State) (r : RegIdx) (v : Word) : (s.retireReg r v).cfg = s.cfg := rfl

@[simp] theorem setPc_reg (s : State) (p : Word) (q : RegIdx) : (s.setPc p).reg q = s.reg q := rfl
@[simp] theorem advance_reg (s : State) (q : RegIdx) : (s.advance).reg q = s.reg q := rfl
@[simp] theorem setMem_reg (s : State) (m : Memory) (q : RegIdx) : (s.setMem m).reg q = s.reg q := rfl
@[simp] theorem setInput_reg (s : State) (i : InStream) (q : RegIdx) : (s.setInput i).reg q = s.reg q := rfl
@[simp] theorem emit_reg (s : State) (b : Byte) (q : RegIdx) : (s.emit b).reg q = s.reg q := rfl
@[simp] theorem setStatus_reg (s : State) (st : RunStatus) (q : RegIdx) : (s.setStatus st).reg q = s.reg q := rfl
@[simp] theorem raise_reg (s : State) (c : Cause) (q : RegIdx) : (s.raise c).reg q = s.reg q := rfl

/-- Register read after register write, both cases (R22). -/
theorem reg_setReg (s : State) (r : RegIdx) (v : Word) (q : RegIdx) :
    (s.setReg r v).reg q = if q = r then v else s.reg q := by
  have h : (q = r) ↔ (r.toNat = q.toNat) := by rw [eq_comm, BitVec.toNat_eq]
  simp only [State.reg, State.setReg, Vector.getElem_set, h]

@[simp] theorem reg_setReg_self (s : State) (r : RegIdx) (v : Word) : (s.setReg r v).reg r = v := by
  simp [reg_setReg]

theorem reg_setReg_ne (s : State) (r : RegIdx) (v : Word) {q : RegIdx} (h : q ≠ r) :
    (s.setReg r v).reg q = s.reg q := by
  simp [reg_setReg, h]

theorem reg_retireReg (s : State) (r : RegIdx) (v : Word) (q : RegIdx) :
    (s.retireReg r v).reg q = if q = r then v else s.reg q :=
  reg_setReg s r v q

@[simp] theorem reg_retireReg_self (s : State) (r : RegIdx) (v : Word) :
    (s.retireReg r v).reg r = v :=
  reg_setReg_self s r v

theorem reg_retireReg_ne (s : State) (r : RegIdx) (v : Word) {q : RegIdx} (h : q ≠ r) :
    (s.retireReg r v).reg q = s.reg q :=
  reg_setReg_ne s r v h

/-- Two states agree on every register exactly when their register files are equal. -/
theorem regs_ext {s t : State} (h : ∀ q, t.reg q = s.reg q) : t.regs = s.regs := by
  apply Vector.ext
  intro i hi
  have := h (BitVec.ofNat 3 i)
  have e : (BitVec.ofNat 3 i).toNat = i := by simp [Nat.mod_eq_of_lt hi]
  simpa only [State.reg, e] using this

end Sys2Proof.Machine
end

