-- ==== Sys2Proof/Laws/Exec.lean ====
section
/-!
SUPPORT. What `settle`, an instruction and a step can answer, said once: proofs cite these instead of
unfolding `exec` or `step`.
-/

namespace Sys2Proof.Machine

/-- Everything `settle` can answer: the next state of the success branch, or the fatal condition in
the unchanged state. -/
theorem settle_next {α : Type} {s t : State} {r : Except Cause α} {k : α → State} :
    settle s r k = .next t ↔ (∃ x, r = .ok x ∧ t = k x) ∨ (∃ c, r = .error c ∧ t = s.raise c) := by
  cases r with
  | ok x => simp [settle, eq_comm]
  | error c => simp [settle, eq_comm]

/-- Checks that pass: the success branch. -/
theorem settle_ok {α : Type} {s : State} {r : Except Cause α} {k : α → State} {x : α}
    (h : r = .ok x) : settle s r k = .next (k x) := by
  rw [h]; rfl

/-- A check that fails: the fatal condition. -/
theorem settle_error {α : Type} {s : State} {r : Except Cause α} {k : α → State} {c : Cause}
    (h : r = .error c) : settle s r k = .next (s.raise c) := by
  rw [h]; rfl

/-- Everything `Input()` can answer (R193). -/
theorem take_cases (i : InStream) :
    (∃ b rest, i.pending = b :: rest ∧
      i.take = .byte b { i with pending := rest, consumed := i.consumed + 1 }) ∨
    (i.pending = [] ∧ i.ended = true ∧ i.take = .endOfStream) ∨
    (i.pending = [] ∧ i.ended = false ∧ i.take = .notArrived) := by
  obtain ⟨p, e, n⟩ := i
  cases p with
  | cons b rest => exact .inl ⟨b, rest, rfl, rfl⟩
  | nil => cases e <;> simp [InStream.take]

/-- Everything an instruction can do: write one register and advance; change memory and advance; and
so on, one shape per kind of effect, or take a fatal condition. -/
inductive Effect (s : State) : State → Prop where
  | advanced : Effect s s.advance
  | wrote (r : RegIdx) (v : Word) : Effect s (s.retireReg r v)
  | stored (i o v : Word) (m : Memory) (h : s.mem.store i o v = .ok m) :
      Effect s (s.setMem m).advance
  | mapped (b c : RegIdx) (r : Memory × Nat) (h : s.mem.map s.cfg (s.reg c) = .ok r) :
      Effect s ((s.setMem r.1).retireReg b (BitVec.ofNat 32 r.2))
  | unmapped (i : Word) (m : Memory) (h : s.mem.unmap i = .ok m) : Effect s (s.setMem m).advance
  | loaded (i p : Word) (m : Memory) (h : s.mem.replaceZero s.cfg i = .ok m) :
      Effect s ((s.setMem m).setPc p)
  | emitted (b : Byte) : Effect s (s.emit b).advance
  | received (c : RegIdx) (b : Byte) (rest : List Byte) (h : s.input.pending = b :: rest) :
      Effect s ((s.setInput { s.input with pending := rest, consumed := s.input.consumed + 1 }).retireReg
        c (byteWord b))
  | waited (h : s.input.pending = [] ∧ s.input.ended = false) : Effect s s
  | halted : Effect s (s.advance.setStatus .halted)
  | raised (c : Cause) : Effect s (s.raise c)

/-- Every instruction answers a next state, and it is one of the shapes of `Effect`. -/
theorem exec_effect (i : Instr) (s : State) : ∃ t, exec i s = .next t ∧ Effect s t := by
  cases i with
  | cmov a b c =>
    simp only [exec, execCmov]
    split_ifs
    · exact ⟨_, rfl, .wrote _ _⟩
    · exact ⟨_, rfl, .advanced⟩
  | sload a b c =>
    simp only [exec, execSload, settle]
    split
    · exact ⟨_, rfl, .wrote _ _⟩
    · exact ⟨_, rfl, .raised _⟩
  | sstore a b c =>
    simp only [exec, execSstore, settle]
    split
    · exact ⟨_, rfl, .stored _ _ _ _ ‹_›⟩
    · exact ⟨_, rfl, .raised _⟩
  | add a b c => exact ⟨_, rfl, .wrote _ _⟩
  | mul a b c => exact ⟨_, rfl, .wrote _ _⟩
  | div a b c =>
    simp only [exec, execDiv]
    split_ifs
    · exact ⟨_, rfl, .raised _⟩
    · exact ⟨_, rfl, .wrote _ _⟩
  | nand a b c => exact ⟨_, rfl, .wrote _ _⟩
  | halt => exact ⟨_, rfl, .halted⟩
  | map b c =>
    simp only [exec, execMap, settle]
    split
    · exact ⟨_, rfl, .mapped _ _ _ ‹_›⟩
    · exact ⟨_, rfl, .raised _⟩
  | unmap c =>
    simp only [exec, execUnmap, settle]
    split
    · exact ⟨_, rfl, .unmapped _ _ ‹_›⟩
    · exact ⟨_, rfl, .raised _⟩
  | out c =>
    simp only [exec, execOut]
    split_ifs
    · exact ⟨_, rfl, .raised _⟩
    · exact ⟨_, rfl, .emitted _⟩
  | inp c =>
    simp only [exec, execIn]
    rcases take_cases s.input with ⟨b, rest, h, e⟩ | ⟨h1, h2, e⟩ | ⟨h1, h2, e⟩ <;> rw [e]
    · exact ⟨_, rfl, .received _ _ _ h⟩
    · exact ⟨_, rfl, .wrote _ _⟩
    · exact ⟨_, rfl, .waited ⟨h1, h2⟩⟩
  | loadp b c =>
    simp only [exec, execLoadp, settle]
    split
    · exact ⟨_, rfl, .loaded _ _ _ ‹_›⟩
    · exact ⟨_, rfl, .raised _⟩
  | loadv r v => exact ⟨_, rfl, .wrote _ _⟩
  | invalid14 w => exact ⟨_, rfl, .raised _⟩
  | invalid15 w => exact ⟨_, rfl, .raised _⟩

/-- Inversion of `exec`. -/
theorem effect_of_exec {i : Instr} {s t : State} (h : exec i s = .next t) : Effect s t := by
  obtain ⟨u, hu, he⟩ := exec_effect i s
  rw [h] at hu
  cases hu
  exact he

/-- A step from a `Running` state is the PC check, or the instruction fetched. -/
theorem step_running {s : State} (h : s.status = .running) : step s = s.stepRunning := by
  simp [step, h]

/-- Everything a step that answers a next state can have done. -/
theorem step_next {s t : State} (h : step s = .next t) : s.status = .running ∧
    ((s.pcOutside = true ∧ t = s.raise (.pcOutOfBounds s.pc)) ∨
     (s.pcOutside = false ∧ exec s.fetch s = .next t)) := by
  unfold step at h
  split at h
  · refine ⟨‹_›, ?_⟩
    unfold State.stepRunning at h
    split_ifs at h with h1
    · exact .inl ⟨h1, by cases h; rfl⟩
    · exact .inr ⟨by simpa using h1, h⟩
  · cases h
  · cases h

/-- Inversion of `step`: the effect of one instruction, or the failed PC check. -/
theorem effect_of_step {s t : State} (h : step s = .next t) : Effect s t := by
  rcases (step_next h).2 with ⟨-, rfl⟩ | ⟨-, h⟩
  · exact .raised _
  · exact effect_of_exec h

/-- A Word that can be read at the pc is the one fetched, and the PC check passes. -/
theorem fetch_of_peek {s : State} {w : Word} (h : s.mem.peek 0 s.pc = some w) :
    s.pcOutside = false ∧ s.fetchWord = w := by
  obtain ⟨g, hg, ho, hr⟩ := peek_eq_some.mp h
  constructor
  · simp only [State.pcOutside, Memory.lenOf, hg, decide_eq_false_iff_not, Nat.not_le]
    exact ho
  · simp only [State.fetchWord, hg]
    exact hr

end Sys2Proof.Machine
end

