-- ==== Sys2Proof/Laws/PerInstr.lean ====
section
/-!
SUPPORT. The family TableRow, one lemma per constructor: the canonical Word of a well-formed
instruction has its row's fixed bits (spec/opcode_table.json: mask 0xF0000000, match its opcode), so the
decoder reads the row's opcode from it.
-/

namespace Sys2Proof.Laws.TableRow

/-- The opcode of an instruction's row in spec/opcode_table.json (30_encoding.md R103). -/
def opcode : Instr → Nat
  | .cmov _ _ _ => 0
  | .sload _ _ _ => 1
  | .sstore _ _ _ => 2
  | .add _ _ _ => 3
  | .mul _ _ _ => 4
  | .div _ _ _ => 5
  | .nand _ _ _ => 6
  | .halt => 7
  | .map _ _ => 8
  | .unmap _ => 9
  | .out _ => 10
  | .inp _ => 11
  | .loadp _ _ => 12
  | .loadv _ _ => 13
  | .invalid14 _ => 14
  | .invalid15 _ => 15

/-- A well-formed instruction's canonical Word holds its row's opcode in bits 31:28. -/
def Statement (i : Instr) : Prop := WellFormed i → (fieldOp (encode i)).toNat = opcode i

theorem standardWord_op {op : Nat} (h : op < 16) (a b c : RegIdx) :
    (fieldOp (standardWord op a b c)).toNat = op := by
  have ha := a.isLt
  have hb := b.isLt
  have hc := c.isLt
  rw [fieldOp_toNat, standardWord_toNat h]
  omega

theorem cmov (a b c : RegIdx) : Statement (.cmov a b c) := fun _ => standardWord_op (by decide) a b c
theorem sload (a b c : RegIdx) : Statement (.sload a b c) := fun _ => standardWord_op (by decide) a b c
theorem sstore (a b c : RegIdx) : Statement (.sstore a b c) := fun _ => standardWord_op (by decide) a b c
theorem add (a b c : RegIdx) : Statement (.add a b c) := fun _ => standardWord_op (by decide) a b c
theorem mul (a b c : RegIdx) : Statement (.mul a b c) := fun _ => standardWord_op (by decide) a b c
theorem div (a b c : RegIdx) : Statement (.div a b c) := fun _ => standardWord_op (by decide) a b c
theorem nand (a b c : RegIdx) : Statement (.nand a b c) := fun _ => standardWord_op (by decide) a b c
theorem halt : Statement .halt := fun _ => standardWord_op (by decide) 0 0 0
theorem map (b c : RegIdx) : Statement (.map b c) := fun _ => standardWord_op (by decide) 0 b c
theorem unmap (c : RegIdx) : Statement (.unmap c) := fun _ => standardWord_op (by decide) 0 0 c
theorem out (c : RegIdx) : Statement (.out c) := fun _ => standardWord_op (by decide) 0 0 c
theorem inp (c : RegIdx) : Statement (.inp c) := fun _ => standardWord_op (by decide) 0 0 c
theorem loadp (b c : RegIdx) : Statement (.loadp b c) := fun _ => standardWord_op (by decide) 0 b c

theorem loadv (r : RegIdx) (v : Imm25) : Statement (.loadv r v) := fun _ => by
  have hr := r.isLt
  have hv := v.isLt
  rw [fieldOp_toNat, encode_loadv_toNat]
  simp only [opcode]
  omega

theorem invalid14 (w : Word) : Statement (.invalid14 w) := fun h => by
  simp only [encode, opcode, fieldOp_toNat]
  exact beq_iff_eq.mp h

theorem invalid15 (w : Word) : Statement (.invalid15 w) := fun h => by
  simp only [encode, opcode, fieldOp_toNat]
  exact beq_iff_eq.mp h

end Sys2Proof.Laws.TableRow
end

