-- ==== Sys2Proof/Laws/Safety.lean ====
section
/-!
SUPPORT. The words of Safety.lean in a form that evaluates: MAX_WORDS exceeded is the model's own check, and
the invariants of R33 on a concrete memory follow from finitely many checks.
-/

namespace Sys2Proof.Machine

/-- "Exceeds MAX_WORDS" is what `overCapacity` computes (R7). -/
theorem exceedsWords_iff {cfg : Params} {n : Nat} : ExceedsWords cfg n ↔ overCapacity cfg n = true := by
  unfold ExceedsWords overCapacity
  cases cfg.maxWords with
  | none => simp
  | some k => simp

/-- A key that no entry has is not in the table. -/
theorem tableGet_none {α : Type} {t : List (Nat × α)} {i : Nat} (h : ∀ e ∈ t, e.1 ≠ i) :
    tableGet t i = none := by
  induction t with
  | nil => rfl
  | cons e t ih =>
    rw [tableGet, if_neg (h e List.mem_cons_self)]
    exact ih fun e he => h e (List.mem_cons_of_mem _ he)

/-- The invariants of R33 from checks over the listed segments, the free list and the identifiers issued
so far. -/
theorem consistent_of_checks {cfg : Params} {m : Memory} (hw : m.wf)
    (hz : (tableGet m.segs 0).isSome) (h0 : 0 ∉ m.free) (hs : ∀ e ∈ m.segs, e.1 < m.nextId)
    (hf : ∀ k ∈ m.free, k < m.nextId) (hi : ∀ k < m.nextId, 1 ≤ k →
      ((tableGet m.segs k).isSome ↔ k ∉ m.free)) (hd : m.free.Nodup)
    (hc : 1 ≤ m.nextId ∧ m.nextId ≤ cfg.maxSegments) (hl : ∀ e ∈ m.segs, e.2.len < 2 ^ 32) :
    m.Consistent cfg where
  canonical := hw
  zeroLive := hz
  zeroNotFree := h0
  unissued k hk := ⟨tableGet_none fun e he hek => absurd (hs e he) (by omega),
    fun hm => absurd (hf k hm) (by omega)⟩
  issued k h1 h2 := hi k h2 h1
  freeDistinct := hd
  counter := hc
  lengths := hl

end Sys2Proof.Machine
end

