-- ==== Sys2Proof/Tests/Slice0.lean ====
section
/-!
SUPPORT. Tests, every expected value from spec/95_test_vectors.md or from the encoding rules by hand, and
one named witness for the hypotheses of each statement of Certificates/Slice0/Obligations.lean.
-/

namespace Sys2Proof.Tests

open Sys2Proof Sys2Proof.Machine

/-! ## Helpers -/

/-- The reset state with these Words as the program and no input. -/
def program (ws : List Word) : State := State.bootWords Params.idealised ws [] true

/-- The same with further segments, a free list and `next_id`. -/
def segments (ws : List Word) (others : List (Nat × List Word)) (free : List Nat) (next : Nat) : State :=
  (program ws).setMem
    { segs := (0, Segment.ofWords ws) :: others.map fun e => (e.1, Segment.ofWords e.2)
      free := free, nextId := next }

/-- The start state of V-SEG-1 to V-SEG-10: segment 1 holds decimal 10, 20, 30. -/
def ten (ws : List Word) : State := segments ws [(1, [0xA, 0x14, 0x1E])] [] 2

/-- The same state with other parameters. -/
def underParams (s : State) (maxSegments : Nat) (maxWords : Option Nat) : State :=
  { s with cfg := { Params.idealised with maxSegments := maxSegments, maxWords := maxWords } }

/-- The next state of an outcome that has one. -/
def nextOr (s : State) : Host.Outcome State Fault Refusal → State
  | .next t => t
  | _ => s

/-- Whether an outcome is a next state. -/
def isNext : Host.Outcome State Fault Refusal → Bool
  | .next _ => true
  | _ => false

theorem eq_next {s : State} {o : Host.Outcome State Fault Refusal} (h : isNext o = true) :
    o = .next (nextOr s o) := by
  cases o with
  | next t => rfl
  | fault r => cases h
  | refused r => cases h

/-- The state after one step, and after one instruction. -/
def got (s : State) : State := nextOr s (step s)
def gotBy (i : Instr) (s : State) : State := nextOr s (exec i s)

theorem step_got {s : State} (h : isNext (step s) = true) : step s = .next (got s) := eq_next h
theorem exec_got {i : Instr} {s : State} (h : isNext (exec i s) = true) :
    exec i s = .next (gotBy i s) := eq_next h

/-! ## WellFormed: an ill-formed term for each check -/

theorem test_illformed_invalid14 : ¬ WellFormed (.invalid14 0xF0000000) ∧ WellFormed (.invalid14 0xEFFFFFFF) := by
  decide

theorem test_illformed_invalid15 : ¬ WellFormed (.invalid15 0xE0000000) ∧ WellFormed (.invalid15 0xF0000000) := by
  decide

/-! ## Decoding: Words written out bit by bit from R98 and R99 (op, 19 unused, A, B, C) -/

theorem test_decode_cmov : decode 0b0000_0000000000000000000_001_010_011 = .cmov 1 2 3 := by decide
theorem test_decode_sload : decode 0b0001_0000000000000000000_100_001_010 = .sload 4 1 2 := by decide
theorem test_decode_sstore : decode 0b0010_0000000000000000000_001_010_011 = .sstore 1 2 3 := by decide
theorem test_decode_add : decode 0b0011_1111111111111111111_001_010_011 = .add 1 2 3 := by decide
theorem test_decode_mul : decode 0b0100_0000000000000000000_011_110_111 = .mul 3 6 7 := by decide
theorem test_decode_div : decode 0b0101_0000000000000000000_011_001_010 = .div 3 1 2 := by decide
theorem test_decode_nand : decode 0b0110_0000000000000000000_001_010_010 = .nand 1 2 2 := by decide
theorem test_decode_halt : decode 0b0111_1111111111111111111_111_111_111 = .halt := by decide
theorem test_decode_map : decode 0b1000_0000000000000000000_101_010_001 = .map 2 1 := by decide
theorem test_decode_unmap : decode 0b1001_0000000000000000001_111_110_001 = .unmap 1 := by decide
theorem test_decode_out : decode 0b1010_0000000000000000000_010_011_101 = .out 5 := by decide
theorem test_decode_in : decode 0b1011_0000000000000000000_000_000_001 = .inp 1 := by decide
theorem test_decode_loadp : decode 0b1100_1010101111001101111_000_111_010 = .loadp 7 2 := by decide
theorem test_decode_loadv : decode 0b1101_101_1000000000000000000000001 = .loadv 5 0x1000001 := by decide
theorem test_decode_invalid14 : decode 0xE0000000 = .invalid14 0xE0000000 := by decide
theorem test_decode_invalid15 : decode 0xFFFFFFFF = .invalid15 0xFFFFFFFF := by decide

/-- V-ENC-1 to V-ENC-13. -/
theorem test_extract :
    extract 0xDEADBEEF 4 28 = 0xD ∧ extract 0xDEADBEEF 3 6 = 3 ∧ extract 0xDEADBEEF 3 3 = 5 ∧
    extract 0xDEADBEEF 3 0 = 7 ∧ extract 0xDEADBEEF 3 25 = 7 ∧ extract 0xDEADBEEF 25 0 = 0x0ADBEEF ∧
    extract 0xDEADBEEF 32 0 = 0xDEADBEEF ∧ extract 0xDEADBEEF 0 0 = 0 ∧ extract 0xDEADBEEF 0 32 = 0 ∧
    extract 0xDEADBEEF 1 31 = 1 ∧ extract 0xDEADBEEF 16 16 = 0xDEAD ∧ extract 0xDEADBEEF 8 4 = 0xEE ∧
    extract 0xDEADBEEF 31 1 = 0x6F56DF77 := by
  decide

/-- The canonical encodings under V-ENC-23. -/
theorem test_encode :
    encode (.add 1 2 3) = 0x30000053 ∧ encode (.loadv 7 0x1FFFFFF) = 0xDFFFFFFF ∧
    encode .halt = 0x70000000 ∧ encode (.map 2 1) = 0x80000011 ∧ encode (.loadp 2 6) = 0xC0000016 := by
  decide

/-- R60, R273: an image is read big-endian, and fewer than four bytes hold no instruction. -/
theorem test_decode_bytes :
    (decodeBytes [0xD0, 0x00, 0x00, 0x48, 0xA0]).toOption = some (.loadv 0 72, [0xA0]) ∧
    (decodeBytes [0xD0, 0x00, 0x00]).toOption = none ∧
    encodeBytes (.loadv 0 72) = [0xD0, 0x00, 0x00, 0x48] := by
  decide

theorem test_decode_table_word :
    decodeTableWord 32 0x3FFFFECA = some (.add 3 1 2) ∧ decodeTableWord 40 0 = none := by
  decide

/-! ## One step (section 2.2) -/

/-- V-ALU-1, V-ALU-2, V-ALU-3. -/
theorem test_cmov_condition :
    (got (((program [0x00000053]).setReg 1 5).setReg 2 9 |>.setReg 3 1)).reg 1 = 9 ∧
    (got (((program [0x00000053]).setReg 1 5).setReg 2 9 |>.setReg 3 0)).reg 1 = 5 ∧
    (got (((program [0x00000053]).setReg 1 5).setReg 2 9 |>.setReg 3 0x80000000)).reg 1 = 9 := by
  decide

/-- V-ALU-5: the condition is the old register. -/
theorem test_cmov_aliased :
    let t := got ((program [0x000000AA]).setReg 2 1)
    (t.reg 2, t.pc) = (0, 1) := by
  decide

/-- V-ALU-6, V-ALU-7, V-ALU-8. -/
theorem test_add_wraps :
    (got (((program [0x30000053]).setReg 2 0xFFFFFFFF).setReg 3 2)).reg 1 = 1 ∧
    (got ((program [0x30000000]).setReg 0 0x80000000)).reg 0 = 0 ∧
    (got (((program [0x300001CA]).setReg 1 0x7FFFFFFF).setReg 2 1)).reg 7 = 0x80000000 := by
  decide

/-- V-ALU-10, V-ALU-12, V-ALU-13. -/
theorem test_mul_low_half :
    (got (((program [0x40000053]).setReg 2 0xFFFFFFFF).setReg 3 0xFFFFFFFF)).reg 1 = 1 ∧
    (got (((program [0x40000053]).setReg 2 0xFFFFFFFF).setReg 3 2)).reg 1 = 0xFFFFFFFE ∧
    (got ((program [0x400000DB]).setReg 3 0x12345)).reg 3 = 0x4B65F099 := by
  decide

/-- V-ALU-14, V-ALU-15, V-ALU-19. -/
theorem test_div_unsigned :
    (got (((program [0x500000CA]).setReg 1 0x64).setReg 2 7)).reg 3 = 0xE ∧
    (got (((program [0x500000CA]).setReg 1 0x80000000).setReg 2 0xFFFFFFFF |>.setReg 3 1)).reg 3 = 0 ∧
    (got ((program [0x50000049]).setReg 1 9)).reg 1 = 1 := by
  decide

/-- V-ALU-17, V-ALU-18. -/
theorem test_div_by_zero :
    let t := got (((program [0x500000CA]).setReg 1 5).setReg 3 0x77)
    (t.status, t.reg 3, t.pc) = (.faulted (.divideByZero 5) 0, 0x77, 0) ∧
    (got ((program [0x500000CA]).setReg 3 0x77)).status = .faulted (.divideByZero 0) 0 := by
  decide

/-- V-ALU-21, V-ALU-22, V-ALU-23. -/
theorem test_nand :
    (got ((program [0x60000053]).setReg 3 0x1234)).reg 1 = 0xFFFFFFFF ∧
    (got ((program [0x60000052]).setReg 2 0x0F0F0F0F)).reg 1 = 0xF0F0F0F0 ∧
    (got (((program [0x60000053]).setReg 2 0xFF00FF00).setReg 3 0x0FF00FF0)).reg 1 = 0xF0FFF0FF := by
  decide

/-- V-ALU-25, V-ALU-27. -/
theorem test_loadv_zero_extends :
    (got ((program [0xDFFFFFFF]).setReg 7 0xFFFFFFFF)).reg 7 = 0x01FFFFFF ∧
    (got (program [0xDB000000])).reg 5 = 0x01000000 := by
  decide

/-! ## One step (section 2.3) -/

/-- V-SEG-1, V-SEG-4, V-SEG-5. -/
theorem test_sload :
    (got (((ten [0x1000010A]).setReg 1 1).setReg 2 1)).reg 4 = 0x14 ∧
    (got (ten [0x10000100])).reg 4 = 0x10000100 ∧
    (got (((ten [0x1000004A]).setReg 1 1).setReg 2 2)).reg 1 = 0x1E := by
  decide

/-- V-SEG-2, V-SEG-3, V-SEG-6. -/
theorem test_sload_faults :
    (got (((ten [0x1000010A]).setReg 1 1).setReg 2 3)).status = .faulted (.offsetOutOfBounds 1 3) 0 ∧
    (got ((ten [0x1000010A]).setReg 1 2)).status = .faulted (.unmappedSegment 2 (some 0)) 0 ∧
    (got (((ten [0x1000010A]).setReg 1 5).setReg 2 0x63)).status =
      .faulted (.unmappedSegment 5 (some 0x63)) 0 := by
  decide

/-- V-SEG-7, V-SEG-10. -/
theorem test_sstore :
    let t := got ((((ten [0x20000053]).setReg 1 1).setReg 2 2).setReg 3 0xDEADBEEF)
    (t.mem.peek 1 0, t.mem.peek 1 1, t.mem.peek 1 2) = (some 0xA, some 0x14, some 0xDEADBEEF) ∧
    (got ((ten [0x20000003]).setReg 3 0x70000000)).mem.peek 0 0 = some 0x70000000 ∧
    (got (got ((ten [0x20000003]).setReg 3 0x70000000))).status = .faulted (.pcOutOfBounds 1) 1 := by
  decide

/-- V-SEG-8, V-SEG-9. -/
theorem test_sstore_faults :
    let t := got ((((ten [0x20000053]).setReg 1 1).setReg 2 3).setReg 3 7)
    (t.status, t.mem) = (.faulted (.offsetOutOfBounds 1 3) 0, (ten [0x20000053]).mem) ∧
    (got (((ten [0x20000053]).setReg 1 9).setReg 3 7)).status =
      .faulted (.unmappedSegment 9 (some 0)) 0 := by
  decide

/-- V-SEG-11, V-SEG-12, V-SEG-13, V-SEG-14. -/
theorem test_map :
    let t := got ((program [0x8000000A]).setReg 2 3)
    (t.reg 1, t.mem.lenOf 1, t.mem.peek 1 2, t.mem.nextId) = (1, 3, some 0, 2) ∧
    (got (program [0x8000000A])).mem.live 1 = true ∧
    (got ((program [0x8000001B]).setReg 3 2)).reg 3 = 1 ∧
    let u := got ((segments [0x8000000A] [(1, [1]), (3, [3])] [2, 4] 5).setReg 2 1)
    (u.reg 1, u.mem.peek 4 0, u.mem.free, u.mem.nextId) = (4, some 0, [2], 5) := by
  decide

/-- V-SEG-20, V-SEG-21. -/
theorem test_map_exhausted :
    (got (underParams ((segments [0x8000000A] [(1, [])] [] 2).setReg 2 1) 2 none)).status =
      .faulted (.resourceExhausted 1) 0 ∧
    (got (underParams ((program [0x8000000A]).setReg 2 4) (2 ^ 32) (some 4))).status =
      .faulted (.resourceExhausted 4) 0 ∧
    (got (underParams ((program [0x8000000A]).setReg 2 3) (2 ^ 32) (some 4))).status = .running := by
  decide

/-- V-SEG-16. -/
theorem test_unmap :
    let t := got ((ten [0x90000001]).setReg 1 1)
    (t.mem.live 1, t.mem.free, t.mem.nextId, t.reg 1) = (false, [1], 2, 1) := by
  decide

/-- V-SEG-17, V-SEG-18, V-SEG-19. -/
theorem test_unmap_faults :
    (got (ten [0x90000001])).status = .faulted .badUnmapZero 0 ∧
    (got ((ten [0x90000001]).setReg 1 2)).status = .faulted (.badUnmapNotLive 2) 0 ∧
    (got ((segments [0x90000001] [(1, [0])] [2] 3).setReg 1 2)).status =
      .faulted (.badUnmapNotLive 2) 0 := by
  decide

/-! ## One step (sections 2.4 and 2.5) -/

/-- V-CTL-1, V-CTL-2. -/
theorem test_halt :
    let t := got ((program [0x70000000]).setReg 1 3)
    (t.status, t.reg 1, t.status.exitStatus) = (.halted, 3, some 0) ∧
    (got (program [0x7FFFFFFF])).status = .halted := by
  decide

/-- V-CTL-3, V-CTL-4, V-CTL-9. -/
theorem test_loadp :
    let t := got ((program [0xC0000001, 0x70000000, 0xD0000001, 0x70000000]).setReg 1 2)
    (t.pc, t.status, t.mem.lenOf 0) = (2, .running, 4) ∧
    let u := got (((segments [0xC0000011, 0x70000000] [(1, [0xD0000005, 0xA0000000, 0x70000000])]
      [] 2).setReg 1 1).setReg 2 1)
    (u.pc, u.mem.peek 0 0, u.mem.lenOf 0, u.mem.lenOf 1) = (1, some 0xD0000005, 3, 3) ∧
    (got (got ((segments [0xC0000009, 0x70000000] [(1, [0x70000000, 0x70000000])] [] 2).setReg 1
      1))).status = .halted := by
  decide

/-- V-CTL-5, V-CTL-6, V-CTL-7. -/
theorem test_loadp_faults :
    (got ((segments [0xC0000011, 0x70000000] [(1, [0x70000000])] [] 2).setReg 2 3)).status =
      .faulted (.unmappedSegment 3 none) 0 ∧
    (got (got ((program [0xC0000001, 0x70000000]).setReg 1 2))).status = .faulted (.pcOutOfBounds 2) 2 ∧
    (got (got ((segments [0xC0000011, 0x70000000] [(1, [])] [] 2).setReg 2 1))).status =
      .faulted (.pcOutOfBounds 0) 0 := by
  decide

/-- V-STEP-1, V-STEP-3, V-STEP-4. -/
theorem test_step_faults :
    (got (program [])).status = .faulted (.pcOutOfBounds 0) 0 ∧
    (got (program [0xE0000000])).status = .faulted (.invalidOpcode 0 0xE0000000) 0 ∧
    (got (program [0xF0000000])).status = .faulted (.invalidOpcode 0 0xF0000000) 0 := by
  decide

/-- V-IO-1, V-IO-2, V-IO-3. -/
theorem test_out :
    (got ((program [0xA0000000]).setReg 0 0x48)).out = [0x48] ∧ (got (program [0xA0000005])).out = [0] ∧
    (got ((program [0xA0000005]).setReg 5 0xFF)).out = [0xFF] := by
  decide

/-- V-IO-4, both values. -/
theorem test_out_of_range :
    let t := got ((program [0xA0000005]).setReg 5 0xFFFFFFFF)
    (t.status, t.out, t.pc) = (.faulted (.outputOutOfRange 0xFFFFFFFF) 0, [], 0) ∧
    (got ((program [0xA0000005]).setReg 5 0x100)).status = .faulted (.outputOutOfRange 0x100) 0 := by
  decide

/-- V-IO-6 to V-IO-9. -/
theorem test_in :
    let t := got ((State.bootWords Params.idealised [0xB0000001] [0x48] true).setReg 1 0x12345678)
    (t.reg 1, t.input.consumed) = (0x48, 1) ∧
    (got (State.bootWords Params.idealised [0xB0000001] [0xFF] true)).reg 1 = 0xFF ∧
    let u := got ((program [0xB0000001]).setReg 1 0x12345678)
    (u.reg 1, u.input.consumed, u.status) = (0xFFFFFFFF, 0, .running) ∧
    (got (State.bootWords Params.idealised [0xB0000001] [0] true)).reg 1 = 0 := by
  decide

/-- R195: IN waits, and reads the byte once it has arrived. -/
theorem test_in_waits :
    let s := State.bootWords Params.idealised [0xB0000001] [] false
    got s = s ∧ (got (s.deliver 0x41)).reg 1 = 0x41 ∧ (got s.endInput).reg 1 = 0xFFFFFFFF := by
  decide

/-- R240: what a faulted run shows the host (program P7: exit status 5). -/
theorem test_status_outputs :
    let t := got (program [0x50000042])
    (t.status.exitStatus, t.statusOutputs.faulted, t.statusOutputs.cause, t.statusOutputs.faultPc) =
      (some 5, true, 5, 0) := by
  decide

/-- The image of program P1 and two images the loader rejects (R273). -/
theorem test_loader :
    State.boot Params.idealised [0xD0, 0, 0, 0x48, 0xA0, 0, 0, 0, 0x70, 0, 0, 0] [] true =
      program [0xD0000048, 0xA0000000, 0x70000000] ∧
    (State.boot Params.idealised [0xD0, 0, 0] [] true).status = .faulted .loaderError 0 ∧
    (State.boot { Params.idealised with imageWordsMax := 0 } [0x70, 0, 0, 0] [] true).status =
      .faulted .loaderError 0 := by
  decide

/-- An instruction placed where the reset state fetches is the first to run. -/
theorem test_with_fetch_word :
    (got (State.reset.withFetchWord 32 0xD0000048)).reg 0 = 0x48 ∧
    (got (State.reset.withFetchWord 32 0xE0000000)).status = .faulted (.invalidOpcode 0 0xE0000000) 0 := by
  decide

/-! ## Witnesses: states and operands that meet the hypotheses of each statement -/

theorem program_inv : (program [0xD0000048, 0x70000000]).Inv :=
  ⟨by decide, consistent_of_checks (by decide) (by decide) (by decide) (by decide) (by decide) (by decide)
    (by decide) (by decide) (by decide)⟩

/-- Segment 1 live, identifiers 2 and 3 free. -/
def reusable : State := segments [0x8000000A, 0x70000000] [(1, [5, 0])] [3, 2] 4

theorem reusable_inv : reusable.Inv :=
  ⟨by decide, consistent_of_checks (by decide) (by decide) (by decide) (by decide) (by decide) (by decide)
    (by decide) (by decide) (by decide)⟩

theorem witness_DecodeInvertsEncode :
    WellFormed (.cmov 7 0 5) ∧ WellFormed .halt ∧ WellFormed (.loadv 7 0x1FFFFFF) ∧
    WellFormed (.invalid14 0xEFFFFFFF) ∧ WellFormed (.invalid15 0xF0000000) := by
  decide

theorem witness_IgnoredBitsHaveNoEffect :
    (0xCFFFFFFF : Word).toNat / 2 ^ 28 ≤ 12 ∧ WellFormed (.loadp 7 2) := by
  decide

theorem witness_DecoderTagsByOpcode :
    (0xCFFFFFFF : Word).toNat / 2 ^ 28 ≤ 12 ∧ (0xD0000000 : Word).toNat / 2 ^ 28 = 13 ∧
    14 ≤ (0xE0000000 : Word).toNat / 2 ^ 28 := by
  decide

theorem witness_ExtractSelectsField : ∃ width lsb lsb' : Nat, width + lsb ≤ 32 ∧ lsb' ≤ 32 ∧ lsb' = 32 :=
  ⟨25, 7, 32, by decide, by decide, rfl⟩

theorem witness_ExtractRangeIsFatal : ∃ width lsb : Nat, width + lsb ≤ 32 ∧ 32 < width + (lsb + 1) :=
  ⟨4, 28, by decide, by decide⟩

/-- L1-2's two instances, the second with the largest value of its field. -/
theorem witness_SetUnsignedThenGet :
    (3 + 6 ≤ 32 ∧ fitsUnsigned 2 3 = true ∧ setUnsigned 0xFFFFFFFF 3 6 2 = .ok 0xFFFFFEBF) ∧
    (25 + 0 ≤ 32 ∧ fitsUnsigned 0x1FFFFFF 25 = true ∧ setUnsigned 0 25 0 0x1FFFFFF = .ok 0x01FFFFFF) ∧
    (0 < 6 ∧ 6 + 3 ≤ 9) :=
  ⟨⟨by decide, by decide, by rfl⟩, ⟨by decide, by decide, by rfl⟩, by decide⟩

theorem witness_StepRunsDecodedInstruction :
    let s := program [0xD0000048]
    s.status = .running ∧ s.mem.peek 0 s.pc = some 0xD0000048 := by
  decide

theorem witness_PcBoundIsChecked :
    let s := (program [0xD0000048]).setPc 1
    s.status = .running ∧ s.mem.lenOf 0 ≤ s.pc.toNat := by
  decide

theorem witness_TerminalStatesHaveNoStep :
    (got (program [0x70000000])).status = .halted ∧
    (got (program [])).status = .faulted (.pcOutOfBounds 0) 0 ∧ State.reset.status = .running := by
  decide

/-- A Running state whose next instruction is an IN that waits. -/
theorem witness_WaitingInStep :
    let s := State.bootWords Params.idealised [0xB0000001] [] false
    s.status = .running ∧ s.mem.peek 0 s.pc = some 0xB0000001 ∧ decode 0xB0000001 = .inp 1 ∧
    s.InputWaits :=
  ⟨by decide, by decide, by decide, rfl, rfl⟩

theorem witness_InvalidOpcodeIsFatal :
    0xE0000000 ≤ (0xE0000000 : Word).toNat ∧ 0xE0000000 ≤ (0xFFFFFFFF : Word).toNat := by
  decide

theorem witness_NetEffectOnPc : ∃ s t u : State,
    exec (.inp 1) s = .next t ∧ t.status = .running ∧ ¬ s.InputWaits ∧
    exec (.loadp 0 1) s = .next u ∧ u.status = .running :=
  ⟨(program [0]).setReg 1 2, gotBy (.inp 1) ((program [0]).setReg 1 2),
    gotBy (.loadp 0 1) ((program [0]).setReg 1 2), exec_got (by decide), by decide,
    fun h => absurd h.2 (by decide), exec_got (by decide), by decide⟩

theorem witness_FaultsArePrecise : ∃ s t : State,
    step s = .next t ∧ t.status = .faulted (.divideByZero 5) 0 :=
  ⟨(program [0x500000CA]).setReg 1 5, got ((program [0x500000CA]).setReg 1 5), step_got (by decide),
    by decide⟩

theorem witness_FaultMatrix : ∃ s t u : State, s.status = .running ∧
    exec (.sload 4 1 2) s = .next t ∧ t.status = .faulted (.offsetOutOfBounds 1 3) 0 ∧
    step State.reset = .next u ∧ u.status = .faulted (.pcOutOfBounds 0) 0 :=
  ⟨((ten [0x1000010A]).setReg 1 1).setReg 2 3,
    gotBy (.sload 4 1 2) (((ten [0x1000010A]).setReg 1 1).setReg 2 3), got State.reset, by decide,
    exec_got (by decide), by decide, step_got (by decide), by decide⟩

theorem witness_PcIncrementNeverWraps : ∃ s : State, s.Inv ∧ s.pc.toNat < s.mem.lenOf 0 :=
  ⟨_, program_inv, by decide⟩

theorem witness_FetchSeesAnyStore :
    let s := ((program [0xD0000001, 0x20000053, 0]).setReg 2 2).setReg 3 0x70000000
    let u := (gotBy (.sstore 1 2 3) s).setPc 2
    (s.reg 1 = 0 ∧ (s.reg 2).toNat < s.mem.lenOf 0) ∧
    (u.mem = (gotBy (.sstore 1 2 3) s).mem ∧ u.status = .running ∧ u.pc = s.reg 2) := by
  decide

theorem witness_FetchSeesStores :
    let s := ((program [0x20000053, 0]).setReg 2 1).setReg 3 0x70000000
    s.status = .running ∧ s.mem.peek 0 s.pc = some 0x20000053 ∧ decode 0x20000053 = .sstore 1 2 3 ∧
    s.reg 1 = 0 ∧ s.reg 2 = s.pc + 1 ∧ (s.pc + 1).toNat < s.mem.lenOf 0 := by
  decide

theorem witness_FetchSeesLoads :
    let s := (segments [0xC0000008] [(1, [0x70000000])] [] 2).setReg 1 1
    s.status = .running ∧ s.mem.peek 0 s.pc = some 0xC0000008 ∧ decode 0xC0000008 = .loadp 1 0 ∧
    s.reg 1 ≠ 0 ∧ ¬ ExceedsWords s.cfg (s.mem.wordsInUse - s.mem.lenOf 0 + s.mem.lenOf (s.reg 1)) ∧
    s.mem.peek (s.reg 1) (s.reg 0) = some 0x70000000 := by
  simp only [exceedsWords_iff]
  decide

theorem witness_Div :
    let s := ((program []).setReg 1 0x80000000).setReg 2 0xFFFFFFFF
    s.reg 2 ≠ 0 ∧ s.reg 3 = 0 := by
  decide

/-- The three cases of SLOAD and of SSTORE; the offset of the third is the length. -/
theorem witness_SegmentAccess :
    let s := (((ten []).setReg 1 1).setReg 2 2).setReg 3 3
    (s.mem.live (s.reg 1) = true ∧ (s.reg 2).toNat < s.mem.lenOf (s.reg 1)) ∧
    s.mem.live (s.reg 2) = false ∧
    (s.mem.live (s.reg 1) = true ∧ s.mem.lenOf (s.reg 1) ≤ (s.reg 3).toNat) := by
  decide

theorem witness_MapIssuesFreshIdentifier : ∃ s : State, s.Inv ∧ s.mem.free = [] ∧
    s.mem.nextId ≠ s.cfg.maxSegments ∧ ¬ ExceedsWords s.cfg (s.mem.wordsInUse + (s.reg 2).toNat) :=
  ⟨_, program_inv, by decide, by decide, by simp only [exceedsWords_iff]; decide⟩

theorem witness_MapReusesFreeIdentifier : ∃ s : State, s.Inv ∧ s.mem.free ≠ [] ∧
    ¬ ExceedsWords s.cfg (s.mem.wordsInUse + (s.reg 2).toNat) ∧ s.cfg.freePick = .lifo :=
  ⟨_, reusable_inv, by decide, by simp only [exceedsWords_iff]; decide, by decide⟩

/-- MAX_SEGMENTS reached; MAX_WORDS exceeded by one Word, and a fatal MAP. -/
theorem witness_MapExhaustionIsFatal :
    (let s := underParams (segments [] [(1, [])] [] 2) 2 none
     s.mem.free = [] ∧ s.mem.nextId = s.cfg.maxSegments) ∧
    (let s := underParams ((program [0]).setReg 2 4) (2 ^ 32) (some 4)
     ExceedsWords s.cfg (s.mem.wordsInUse + (s.reg 2).toNat) ∧
     exec (.map 1 2) s = .next (gotBy (.map 1 2) s) ∧ (gotBy (.map 1 2) s).status ≠ s.status) := by
  refine ⟨by decide, ?_, exec_got (by decide), by decide⟩
  rw [exceedsWords_iff]
  decide

theorem witness_UnmapReleasesSegment :
    let s := ((ten []).setReg 1 1).setReg 2 2
    (s.reg 1 ≠ 0 ∧ s.mem.live (s.reg 1) = true) ∧ s.reg 0 = 0 ∧
    (s.reg 2 ≠ 0 ∧ s.mem.live (s.reg 2) = false) := by
  decide

theorem witness_MapNeverAliases : ∃ t u : State, reusable.Inv ∧
    exec (.map 1 2) reusable = .next t ∧ t.status = .running ∧ exec (.unmap 1) t = .next u :=
  ⟨gotBy (.map 1 2) reusable, gotBy (.unmap 1) (gotBy (.map 1 2) reusable), reusable_inv,
    exec_got (by decide), by decide, exec_got (by decide)⟩

/-- UNMAP of segment 1, then a MAP that runs, then SLOAD, SSTORE, UNMAP and LOADP of an identifier
still dead. -/
theorem witness_DeadIdentifiersAreFatal :
    let s := (reusable.setReg 1 1).setReg 3 3
    let t := gotBy (.unmap 1) s
    let u := gotBy (.map 4 2) t
    s.cfg.freePick = .lifo ∧ exec (.unmap 1) s = .next t ∧ t.status = .running ∧
    exec (.map 4 2) t = .next u ∧ u.status = .running ∧
    (3 : Word) ≠ 0 ∧ u.mem.live 3 = false ∧ u.reg 3 = 3 :=
  ⟨by decide, exec_got (by decide), by decide, exec_got (by decide), by decide, by decide, by decide,
    by decide⟩

/-- The four cases of LOADP: a plain jump, a live segment within and beyond MAX_WORDS, a dead one. -/
theorem witness_LoadpLoadsProgram :
    let s := ((ten [0]).setReg 1 1).setReg 2 2
    let p := underParams s (2 ^ 32) (some 5)
    s.reg 0 = 0 ∧ (s.reg 1 ≠ 0 ∧ s.mem.live (s.reg 1) = true ∧
      ¬ ExceedsWords s.cfg (s.mem.wordsInUse - s.mem.lenOf 0 + s.mem.lenOf (s.reg 1))) ∧
    (s.reg 2 ≠ 0 ∧ s.mem.live (s.reg 2) = false) ∧
    (p.reg 1 ≠ 0 ∧ p.mem.live (p.reg 1) = true ∧
      ExceedsWords p.cfg (p.mem.wordsInUse - p.mem.lenOf 0 + p.mem.lenOf (p.reg 1))) := by
  simp only [exceedsWords_iff]
  decide

/-- A LOADP whose target is the length of the new segment 0. -/
theorem witness_LoadpTargetOutside : ∃ s t : State, exec (.loadp 1 3) s = .next t ∧
    t.status = .running ∧ t.mem.lenOf 0 ≤ (s.reg 3).toNat :=
  ⟨((ten [0]).setReg 1 1).setReg 3 3, gotBy (.loadp 1 3) (((ten [0]).setReg 1 1).setReg 3 3),
    exec_got (by decide), by decide, by decide⟩

/-- Offsets 6 and 7 of program P4, at offsets 0 and 1. -/
theorem witness_BranchIdiom :
    let s := (((program [0x000000E9, 0xC0000003]).setReg 1 4).setReg 3 8).setReg 5 3
    s.status = .running ∧ s.mem.peek 0 s.pc = some 0x000000E9 ∧ decode 0x000000E9 = .cmov 3 5 1 ∧
    s.mem.peek 0 (s.pc + 1) = some 0xC0000003 ∧ decode 0xC0000003 = .loadp 0 3 ∧
    s.reg 0 = 0 ∧ (3 : RegIdx) ≠ 0 := by
  decide

theorem witness_OutEmitsByte :
    let s := ((program []).setReg 1 255).setReg 2 256
    (s.reg 1).toNat ≤ 255 ∧ 255 < (s.reg 2).toNat := by
  decide

theorem witness_InReadsByteOrEndOfStream :
    (State.bootWords Params.idealised [] [0x48, 0x69] false).input.pending = 0x48 :: [0x69] ∧
    (program []).input.pending = [] ∧ (program []).input.ended = true := by
  decide

theorem witness_EndOfStreamStays : ∃ s t : State, s.AtEndOfStream ∧ step s = .next t :=
  ⟨program [0xB0000001], got (program [0xB0000001]), ⟨rfl, rfl⟩, step_got (by decide)⟩

theorem witness_InWaitsForTheEnvironment :
    (State.bootWords Params.idealised [0xB0000001] [] false).InputWaits :=
  ⟨rfl, rfl⟩

theorem witness_OutputOnlyGrows : ∃ s t : State, step s = .next t ∧ t.out = [0x48] :=
  ⟨(program [0xA0000000]).setReg 0 0x48, got ((program [0xA0000000]).setReg 0 0x48),
    step_got (by decide), by decide⟩

/-- An ADD that stays Running, for the first clause, and a HALT for the second. -/
theorem witness_OnlyIoIsObserved :
    let s := program [0]
    s.status = .running ∧ exec (.add 1 2 3) s = .next (gotBy (.add 1 2 3) s) ∧
    (∀ c, Instr.add 1 2 3 ≠ .out c) ∧ (∀ c, Instr.add 1 2 3 ≠ .inp c) ∧ Instr.add 1 2 3 ≠ .halt ∧
    (∀ c p, (gotBy (.add 1 2 3) s).status ≠ .faulted c p) ∧
    exec .halt s = .next (gotBy .halt s) ∧ (gotBy .halt s).status = .halted :=
  ⟨by decide, exec_got (by decide), by decide, by decide, by decide,
    fun c p h => RunStatus.noConfusion
      ((show (gotBy (.add 1 2 3) (program [0])).status = .running by decide).symm.trans h),
    exec_got (by decide), by decide⟩

/-- An instruction that meets the premises of the two frames over all instructions: SLOAD writes x4
and no other register, and no memory. -/
theorem witness_Frames :
    let s := ((ten []).setReg 1 1).setReg 2 1
    exec (.sload 4 1 2) s = .next (gotBy (.sload 4 1 2) s) ∧ regWritten (.sload 4 1 2) ≠ some 5 ∧
    writesMemory (.sload 4 1 2) = false :=
  ⟨exec_got (by decide), by decide, by decide⟩

/-- Two states that differ in x4, which SLOAD r4, r1, r2 does not read. -/
theorem witness_OnlyTheNamedRegistersAreRead :
    let s := ((ten []).setReg 1 1).setReg 2 1
    let s' := s.setReg 4 0x55
    s'.pc = s.pc ∧ s'.status = s.status ∧ s'.mem = s.mem ∧ s'.input = s.input ∧ s'.out = s.out ∧
    s'.cfg = s.cfg ∧ (∀ q ∈ regsRead (.sload 4 1 2), s'.reg q = s.reg q) ∧ s'.reg 4 ≠ s.reg 4 ∧
    exec (.sload 4 1 2) s = .next (gotBy (.sload 4 1 2) s) ∧
    exec (.sload 4 1 2) s' = .next (gotBy (.sload 4 1 2) s') :=
  ⟨by decide, by decide, by decide, by decide, by decide, by decide, by decide, by decide,
    exec_got (by decide), exec_got (by decide)⟩

/-- A MAP step that counts `next_id` on. -/
theorem witness_IdentifierCounterOnlyGrows : ∃ s t : State, step s = .next t ∧ t.mem.nextId = 2 :=
  ⟨program [0x8000000A], got (program [0x8000000A]), step_got (by decide), by decide⟩

theorem witness_StepKeepsInvariants : ∃ s t : State, s.Inv ∧ step s = .next t ∧ t.mem ≠ s.mem :=
  ⟨reusable, got reusable, reusable_inv, step_got (by decide), by decide⟩

theorem witness_InvariantsHoldAtBoot :
    Params.idealised.valid ∧ ({ Params.idealised with maxSegments := 1 } : Params).valid := by
  decide

theorem witness_LoaderReadsBigEndianOrRejects :
    let image : List Byte := [0x70, 0, 0, 0]
    (image.length % 4 = 0 ∧ image.length / 4 ≤ Params.idealised.imageWordsMax) ∧
    (0x70 :: image).length % 4 ≠ 0 ∧
    ({ Params.idealised with imageWordsMax := 0 } : Params).imageWordsMax < image.length / 4 := by
  decide

theorem witness_ExitStatusTellsTheOutcome :
    (Cause.offsetOutOfBounds 1 2).code = (Cause.offsetOutOfBounds 3 4).code := by
  decide

/-- A state that is not faulted, and a fault that records two values. -/
theorem witness_StatusOutputsShowTheOutcome :
    (∀ c p, State.reset.status ≠ .faulted c p) ∧
    (let t := got (((ten [0x1000010A]).setReg 1 1).setReg 2 3)
     t.status = .faulted (.offsetOutOfBounds 1 3) 0 ∧
     (Cause.offsetOutOfBounds 1 3).info[0]? = some 1 ∧ (Cause.offsetOutOfBounds 1 3).info[1]? = some 3) :=
  ⟨fun c p h => RunStatus.noConfusion h, by decide⟩

theorem witness_BlocksComposeToTheStep : ∃ s : State, s.Inv ∧ s.status = .running :=
  ⟨_, reusable_inv, by decide⟩

end Sys2Proof.Tests
end

section
/-!
PROOFS. The whole-machine rules of 10_state.md: the invariants of R33 at reset, at boot and through every
step; the output and the identifier counter; which registers an instruction writes and reads; reset.
-/

namespace Sys2Proof.Machine

/-! ## What an effect does to the output, the parameters and memory -/

/-- Only OUT appends, and exactly one byte (R36, R190). -/
theorem Effect.out_cases {s t : State} (h : Effect s t) :
    t.out = s.out ∨ ∃ b, t.out = s.out ++ [b] := by
  cases h with
  | emitted b => exact .inr ⟨b, rfl⟩
  | _ => exact .inl rfl

/-- No instruction changes the parameters (log 3). -/
theorem Effect.cfg_eq {s t : State} (h : Effect s t) : t.cfg = s.cfg := by
  cases h <;> rfl

/-- Memory changes through an operation of the segment manager only (R70). -/
theorem Effect.mem_cases {s t : State} (h : Effect s t) :
    t.mem = s.mem ∨ (∃ i o v, s.mem.store i o v = .ok t.mem) ∨
    (∃ n k, s.mem.map s.cfg n = .ok (t.mem, k)) ∨ (∃ i, s.mem.unmap i = .ok t.mem) ∨
    ∃ i, s.mem.replaceZero s.cfg i = .ok t.mem := by
  cases h with
  | stored i o v m h => exact .inr (.inl ⟨i, o, v, h⟩)
  | mapped b c r h => exact .inr (.inr (.inl ⟨s.reg c, r.2, h⟩))
  | unmapped i m h => exact .inr (.inr (.inr (.inl ⟨i, h⟩)))
  | loaded i p m h => exact .inr (.inr (.inr (.inr ⟨i, h⟩)))
  | _ => exact .inl rfl

/-! ## The identifier counter through the segment manager's operations (R32) -/

theorem store_nextId {m m' : Memory} {i o v : Word} (h : m.store i o v = .ok m') :
    m'.nextId = m.nextId := by
  obtain ⟨-, -, -, rfl⟩ := store_ok.mp h
  rfl

theorem unmap_nextId {m m' : Memory} {i : Word} (h : m.unmap i = .ok m') :
    m'.nextId = m.nextId := by
  obtain ⟨-, -, rfl⟩ := unmap_ok.mp h
  rfl

theorem replaceZero_nextId {cfg : Params} {m m' : Memory} {i : Word}
    (h : m.replaceZero cfg i = .ok m') : m'.nextId = m.nextId := by
  obtain ⟨-, rfl⟩ | ⟨-, -, -, -, rfl⟩ := replaceZero_ok.mp h <;> rfl

theorem map_nextId {cfg : Params} {m : Memory} {n : Word} {r : Memory × Nat}
    (h : m.map cfg n = .ok r) : r.1.nextId = m.nextId ∨ r.1.nextId = m.nextId + 1 := by
  obtain ⟨k, next, hk, -, rfl⟩ := map_ok.mp h
  obtain ⟨-, rfl⟩ | ⟨-, -, -, rfl⟩ := chooseId_some.mp hk
  · exact .inl rfl
  · exact .inr rfl

theorem Effect.nextId_cases {s t : State} (h : Effect s t) :
    t.mem.nextId = s.mem.nextId ∨ t.mem.nextId = s.mem.nextId + 1 := by
  obtain hm | ⟨i, o, v, hm⟩ | ⟨n, k, hm⟩ | ⟨i, hm⟩ | ⟨i, hm⟩ := h.mem_cases
  · exact .inl (by rw [hm])
  · exact .inl (store_nextId hm)
  · exact map_nextId hm
  · exact .inl (unmap_nextId hm)
  · exact .inl (replaceZero_nextId hm)

/-! ## The segment manager's operations keep R33 -/

theorem Memory.Consistent.find_len_lt {cfg : Params} {m : Memory} (h : m.Consistent cfg) {i : Word}
    {g : Segment} (hg : m.find i = some g) : g.len < 2 ^ 32 :=
  h.lengths _ (mem_of_tableGet hg)

/-- A live identifier has been issued (R33.3). -/
theorem Memory.Consistent.lt_nextId_of_live {cfg : Params} {m : Memory} (h : m.Consistent cfg) {k : Nat}
    (hk : (tableGet m.segs k).isSome) : k < m.nextId := by
  by_contra hn
  simp [(h.unissued k (by omega)).1] at hk

/-- A free identifier has been issued, and is not 0 (R33.2, R33.3). -/
theorem Memory.Consistent.issued_of_free {cfg : Params} {m : Memory} (h : m.Consistent cfg) {k : Nat}
    (hk : k ∈ m.free) : 1 ≤ k ∧ k < m.nextId := by
  constructor
  · rcases Nat.eq_zero_or_pos k with rfl | h0
    · exact absurd hk h.zeroNotFree
    · exact h0
  · by_contra hn
    exact (h.unissued k (by omega)).2 hk

/-- Keys listed after a put. -/
theorem tableGet_put_isSome {α : Type} (t : List (Nat × α)) (i : Nat) (v : α) (k : Nat) :
    (tableGet (tablePut t i v) k).isSome ↔ k = i ∨ (tableGet t k).isSome := by
  rw [tableGet_put]
  split_ifs with hk <;> simp [hk]

theorem tablePut_lengths {t : List (Nat × Segment)} (h : ∀ e ∈ t, e.2.len < 2 ^ 32) {g : Segment}
    (hg : g.len < 2 ^ 32) (i : Nat) : ∀ e ∈ tablePut t i g, e.2.len < 2 ^ 32 := by
  intro e he
  rcases mem_tablePut he with rfl | he
  · exact hg
  · exact h e he

/-- New contents for a live segment, as SSTORE and LOADP write them, keep R33: liveness stays as it
was. -/
theorem Memory.Consistent.put_live {cfg : Params} {m : Memory} (h : m.Consistent cfg) {i : Nat}
    (hi : (tableGet m.segs i).isSome) {g : Segment} (hw : g.wf) (hl : g.len < 2 ^ 32) :
    Memory.Consistent cfg { m with segs := tablePut m.segs i g } := by
  have live (k : Nat) : (tableGet (tablePut m.segs i g) k).isSome ↔ (tableGet m.segs k).isSome := by
    rw [tableGet_put_isSome]
    exact or_iff_right_of_imp fun hk => hk ▸ hi
  exact
    { canonical := put_wf h.canonical hw i _ _
      zeroLive := (live 0).mpr h.zeroLive
      zeroNotFree := h.zeroNotFree
      unissued := fun k hk => by
        have hki : k ≠ i := ((h.lt_nextId_of_live hi).trans_le hk).ne'
        rw [tableGet_put, if_neg hki]
        exact h.unissued k hk
      issued := fun k h1 h2 => (live k).trans (h.issued k h1 h2)
      freeDistinct := h.freeDistinct
      counter := h.counter
      lengths := tablePut_lengths h.lengths hl i }

theorem store_consistent {cfg : Params} {m m' : Memory} (h : m.Consistent cfg) {i o v : Word}
    (hm : m.store i o v = .ok m') : m'.Consistent cfg := by
  obtain ⟨g, hg, ho, rfl⟩ := store_ok.mp hm
  have hl : g.len < 2 ^ 32 := h.find_len_lt hg
  exact h.put_live (Option.isSome_of_eq_some hg) (write_wf (find_wf h.canonical hg) ho v) hl

theorem replaceZero_consistent {cfg : Params} {m m' : Memory} (h : m.Consistent cfg) {i : Word}
    (hm : m.replaceZero cfg i = .ok m') : m'.Consistent cfg := by
  obtain ⟨-, rfl⟩ | ⟨-, g, hg, -, rfl⟩ := replaceZero_ok.mp hm
  · exact h
  · exact h.put_live h.zeroLive (find_wf h.canonical hg) (h.find_len_lt hg)

/-- UNMAP moves an identifier from the live ones to the free ones. -/
theorem unmap_consistent {cfg : Params} {m m' : Memory} (h : m.Consistent cfg) {i : Word}
    (hm : m.unmap i = .ok m') : m'.Consistent cfg := by
  obtain ⟨hi, hlive, rfl⟩ := unmap_ok.mp hm
  have hi0 : i.toNat ≠ 0 := fun e => hi (BitVec.eq_of_toNat_eq e)
  have hlt : i.toNat < m.nextId := h.lt_nextId_of_live hlive
  have hfree : i.toNat ∉ m.free := (h.issued _ (by omega) hlt).mp hlive
  exact
    { canonical := unmap_wf h.canonical hm
      zeroLive := by simpa [tableGet_del, hi0.symm] using h.zeroLive
      zeroNotFree := by simpa [hi0.symm] using h.zeroNotFree
      unissued := fun k hk => by
        have hki : k ≠ i.toNat := (hlt.trans_le hk).ne'
        simpa [tableGet_del, hki] using h.unissued k hk
      issued := fun k h1 h2 => by
        by_cases hki : k = i.toNat
        · simp [tableGet_del, hki]
        · simpa [tableGet_del, hki] using h.issued k h1 h2
      freeDistinct := h.freeDistinct.append (List.nodup_singleton _) (List.disjoint_singleton.mpr hfree)
      counter := h.counter
      lengths := fun e he => h.lengths e (mem_tableDel he) }

/-- MAP makes the identifier it issues live and takes it off the free list. That identifier was free,
and the counter stays; or it was the counter's value, and the counter rises. -/
theorem map_consistent {cfg : Params} {m : Memory} (h : m.Consistent cfg) {n : Word} {r : Memory × Nat}
    (hm : m.map cfg n = .ok r) : r.1.Consistent cfg := by
  obtain ⟨i, next, hi, -, rfl⟩ := map_ok.mp hm
  have hsrc : 1 ≤ i ∧ i < next ∧ m.nextId ≤ next ∧ next ≤ cfg.maxSegments ∧
      ∀ k, k < next → k = i ∨ k < m.nextId := by
    obtain ⟨hc1, hc2⟩ := h.counter
    rcases chooseId_some.mp hi with ⟨hp, rfl⟩ | ⟨-, hne, rfl, rfl⟩
    · obtain ⟨h1, h2⟩ := h.issued_of_free (pickFree_mem hp)
      exact ⟨h1, h2, Nat.le_refl _, hc2, fun k hk => .inr hk⟩
    · exact ⟨hc1, by omega, by omega, by omega, fun k hk => by omega⟩
  obtain ⟨h1, hlt, hle, hmax, hold⟩ := hsrc
  have hfree (k : Nat) : k ∈ m.free.filter (fun t => t ≠ i) ↔ k ∈ m.free ∧ k ≠ i := by simp
  exact
    { canonical := map_wf h.canonical hm
      zeroLive := (tableGet_put_isSome _ _ _ _).mpr (.inr h.zeroLive)
      zeroNotFree := fun h0 => h.zeroNotFree ((hfree 0).mp h0).1
      unissued := fun k hk => by
        obtain ⟨hnone, hnot⟩ := h.unissued k (hle.trans hk)
        have hki : k ≠ i := (hlt.trans_le hk).ne'
        exact ⟨by rw [tableGet_put, if_neg hki, hnone], fun hf => hnot ((hfree k).mp hf).1⟩
      issued := fun k hk1 hk2 => by
        rw [tableGet_put_isSome, hfree]
        rcases eq_or_ne k i with rfl | hki
        · simp
        · simpa [hki] using h.issued k hk1 ((hold k hk2).resolve_left hki)
      freeDistinct := h.freeDistinct.filter _
      counter := ⟨h.counter.1.trans hle, hmax⟩
      lengths := tablePut_lengths h.lengths n.isLt i }

/-! ## The invariants of a state -/

/-- The invariants speak of the parameters and of memory only. -/
theorem State.Inv.of_eq {s t : State} (h : s.Inv) (hc : t.cfg = s.cfg) (hm : t.mem = s.mem) : t.Inv where
  params := hc ▸ h.params
  memory := hc ▸ hm ▸ h.memory

theorem Effect.keeps_inv {s t : State} (h : Effect s t) (hs : s.Inv) : t.Inv where
  params := h.cfg_eq ▸ hs.params
  memory := by
    rw [h.cfg_eq]
    obtain hm | ⟨i, o, v, hm⟩ | ⟨n, k, hm⟩ | ⟨i, hm⟩ | ⟨i, hm⟩ := h.mem_cases
    · exact hm ▸ hs.memory
    · exact store_consistent hs.memory hm
    · exact map_consistent hs.memory hm
    · exact unmap_consistent hs.memory hm
    · exact replaceZero_consistent hs.memory hm

/-- Settles O47: a step is an effect, and each operation of the segment manager keeps R33. -/
theorem stepKeepsInvariants : Obligations.StepKeepsInvariants :=
  fun _ _ hs h => (effect_of_step h).keeps_inv hs

/-- Settles O41: of the effects only OUT's touches the output. -/
theorem outputOnlyGrows : Obligations.OutputOnlyGrows := by
  intro s t h
  rcases (effect_of_step h).out_cases with ho | ⟨b, ho⟩
  · exact ⟨[], by simp [ho]⟩
  · exact ⟨[b], by simp [ho]⟩

/-- Settles O46: only MAP moves the counter, by one, when no identifier is free. -/
theorem identifierCounterOnlyGrows : Obligations.IdentifierCounterOnlyGrows := by
  intro s t h
  have := (effect_of_step h).nextId_cases
  omega

/-! ## Registers written (R22) -/

/-- The registers after an instruction: all as before, or one write to the register R22's table
names. -/
theorem exec_regs {i : Instr} {s t : State} (h : exec i s = .next t) :
    t.regs = s.regs ∨ ∃ r v, regWritten i = some r ∧ t.regs = (s.setReg r v).regs := by
  cases i with
  | cmov a b c =>
    simp only [exec, execCmov] at h
    split_ifs at h <;> cases h
    · exact .inr ⟨a, _, rfl, rfl⟩
    · exact .inl rfl
  | sload a b c =>
    obtain ⟨v, -, rfl⟩ | ⟨e, -, rfl⟩ := settle_next.mp h
    · exact .inr ⟨a, v, rfl, rfl⟩
    · exact .inl rfl
  | sstore a b c => obtain ⟨m, -, rfl⟩ | ⟨e, -, rfl⟩ := settle_next.mp h <;> exact .inl rfl
  | add a b c => cases h; exact .inr ⟨a, _, rfl, rfl⟩
  | mul a b c => cases h; exact .inr ⟨a, _, rfl, rfl⟩
  | div a b c =>
    simp only [exec, execDiv] at h
    split_ifs at h <;> cases h
    · exact .inl rfl
    · exact .inr ⟨a, _, rfl, rfl⟩
  | nand a b c => cases h; exact .inr ⟨a, _, rfl, rfl⟩
  | halt => cases h; exact .inl rfl
  | map b c =>
    obtain ⟨r, -, rfl⟩ | ⟨e, -, rfl⟩ := settle_next.mp h
    · exact .inr ⟨b, _, rfl, rfl⟩
    · exact .inl rfl
  | unmap c => obtain ⟨m, -, rfl⟩ | ⟨e, -, rfl⟩ := settle_next.mp h <;> exact .inl rfl
  | out c =>
    simp only [exec, execOut] at h
    split_ifs at h <;> cases h <;> exact .inl rfl
  | inp c =>
    simp only [exec, execIn] at h
    split at h <;> cases h
    · exact .inr ⟨c, _, rfl, rfl⟩
    · exact .inr ⟨c, _, rfl, rfl⟩
    · exact .inl rfl
  | loadp b c => obtain ⟨m, -, rfl⟩ | ⟨e, -, rfl⟩ := settle_next.mp h <;> exact .inl rfl
  | loadv r v => cases h; exact .inr ⟨r, _, rfl, rfl⟩
  | invalid14 w => cases h; exact .inl rfl
  | invalid15 w => cases h; exact .inl rfl

/-- Equal register files read equal. -/
theorem reg_eq_of_regs {s t : State} (h : t.regs = s.regs) (q : RegIdx) : t.reg q = s.reg q := by
  simp only [State.reg, h]

/-- Settles O43: the one register written is not `q`. -/
theorem onlyTheNamedRegisterIsWritten : Obligations.OnlyTheNamedRegisterIsWritten := by
  intro i s t q h hq
  rcases exec_regs h with hr | ⟨r, v, hw, hr⟩
  · exact reg_eq_of_regs hr q
  · have hqr : q ≠ r := fun e => hq (e ▸ hw)
    rw [reg_eq_of_regs hr, reg_setReg_ne s r v hqr]

/-! ## Registers read (R22): two runs that agree on the registers read -/

/-- `s` with another register file. -/
def State.withRegs (s : State) (x : Vector Word 8) : State := { s with regs := x }

/-- States that agree outside the registers differ by a register file. -/
theorem eq_withRegs {s s' : State} (hpc : s'.pc = s.pc) (hstatus : s'.status = s.status)
    (hmem : s'.mem = s.mem) (hinput : s'.input = s.input) (hout : s'.out = s.out)
    (hcfg : s'.cfg = s.cfg) : s' = s.withRegs s'.regs := by
  cases s; cases s'; subst_vars; rfl

/-- The next states `t` of `s` and `t'` of `s'` are equal outside the registers, and the register `w`
gets the same value or is left alone in both. -/
structure SameEffect (w : Option RegIdx) (s s' t t' : State) : Prop where
  pc : t'.pc = t.pc
  status : t'.status = t.status
  mem : t'.mem = t.mem
  input : t'.input = t.input
  out : t'.out = t.out
  written : ∀ q, w = some q → t'.reg q = t.reg q ∨ (t.reg q = s.reg q ∧ t'.reg q = s'.reg q)

/-- The two outcomes' next states have the same effect. -/
def SameOutcome (w : Option RegIdx) (s s' : State) (o o' : Host.Outcome State Fault Refusal) : Prop :=
  ∀ t t', o = .next t → o' = .next t' → SameEffect w s s' t t'

section TwoRuns
variable {w : Option RegIdx} {s s' t t' : State} {x : Vector Word 8}

theorem sameOutcome_next (h : SameEffect w s s' t t') : SameOutcome w s s' (.next t) (.next t') := by
  rintro _ _ ⟨⟩ ⟨⟩
  exact h

/-- Neither run writes a register. -/
theorem sameEffect_of_regs_kept (h : t.regs = s.regs) :
    SameEffect w s (s.withRegs x) t (t.withRegs x) :=
  ⟨rfl, rfl, rfl, rfl, rfl, fun q _ => .inr ⟨reg_eq_of_regs h q, rfl⟩⟩

/-- Both runs write the same value to the same register. -/
theorem sameEffect_retireReg (r : RegIdx) (v : Word) :
    SameEffect (some r) s s' (t.retireReg r v) ((t.withRegs x).retireReg r v) :=
  ⟨rfl, rfl, rfl, rfl, rfl, fun q hq => by cases hq; simp⟩

/-- A fatal condition writes no register. -/
theorem sameOutcome_raise (c : Cause) :
    SameOutcome w s (s.withRegs x) (.next (s.raise c)) (.next ((s.withRegs x).raise c)) :=
  sameOutcome_next (sameEffect_of_regs_kept rfl)

/-- The same checks in both runs: it is enough to compare the success branches. -/
theorem sameOutcome_settle {α : Type} {r : Except Cause α} {k k' : α → State}
    (h : ∀ v, SameEffect w s (s.withRegs x) (k v) (k' v)) :
    SameOutcome w s (s.withRegs x) (settle s r k) (settle (s.withRegs x) r k') := by
  cases r with
  | ok v => exact sameOutcome_next (h v)
  | error c => exact sameOutcome_raise c

end TwoRuns

/-- The outcome depends on the register file through the registers R22's table lists. -/
theorem exec_withRegs (i : Instr) (s : State) (x : Vector Word 8)
    (h : ∀ q ∈ regsRead i, (s.withRegs x).reg q = s.reg q) :
    SameOutcome (regWritten i) s (s.withRegs x) (exec i s) (exec i (s.withRegs x)) := by
  cases i with
  | cmov a b c =>
    have hb := h b (by simp [regsRead])
    have hc := h c (by simp [regsRead])
    simp only [exec, execCmov, hb, hc]
    split_ifs
    · exact sameOutcome_next (sameEffect_retireReg a _)
    · exact sameOutcome_next (sameEffect_of_regs_kept rfl)
  | sload a b c =>
    have hb := h b (by simp [regsRead])
    have hc := h c (by simp [regsRead])
    simp only [exec, execSload, sloadAddress, hb, hc]
    exact sameOutcome_settle fun v => sameEffect_retireReg a v
  | sstore a b c =>
    have ha := h a (by simp [regsRead])
    have hb := h b (by simp [regsRead])
    have hc := h c (by simp [regsRead])
    simp only [exec, execSstore, sstoreAddress, ha, hb, hc]
    exact sameOutcome_settle fun m => sameEffect_of_regs_kept rfl
  | add a b c =>
    have hb := h b (by simp [regsRead])
    have hc := h c (by simp [regsRead])
    simp only [exec, execAdd, hb, hc]
    exact sameOutcome_next (sameEffect_retireReg a _)
  | mul a b c =>
    have hb := h b (by simp [regsRead])
    have hc := h c (by simp [regsRead])
    simp only [exec, execMul, hb, hc]
    exact sameOutcome_next (sameEffect_retireReg a _)
  | div a b c =>
    have hb := h b (by simp [regsRead])
    have hc := h c (by simp [regsRead])
    simp only [exec, execDiv, hb, hc]
    split_ifs
    · exact sameOutcome_raise _
    · exact sameOutcome_next (sameEffect_retireReg a _)
  | nand a b c =>
    have hb := h b (by simp [regsRead])
    have hc := h c (by simp [regsRead])
    simp only [exec, execNand, hb, hc]
    exact sameOutcome_next (sameEffect_retireReg a _)
  | halt => exact sameOutcome_next (sameEffect_of_regs_kept rfl)
  | map b c =>
    have hc := h c (by simp [regsRead])
    simp only [exec, execMap, hc]
    exact sameOutcome_settle fun r => sameEffect_retireReg (t := s.setMem r.1) b _
  | unmap c =>
    have hc := h c (by simp [regsRead])
    simp only [exec, execUnmap, hc]
    exact sameOutcome_settle fun m => sameEffect_of_regs_kept rfl
  | out c =>
    have hc := h c (by simp [regsRead])
    simp only [exec, execOut, hc]
    split_ifs
    · exact sameOutcome_raise _
    · exact sameOutcome_next (sameEffect_of_regs_kept rfl)
  | inp c =>
    simp only [exec, execIn, State.withRegs]
    split
    · exact sameOutcome_next (sameEffect_retireReg (t := s.setInput _) c _)
    · exact sameOutcome_next (sameEffect_retireReg c _)
    · exact sameOutcome_next (sameEffect_of_regs_kept rfl)
  | loadp b c =>
    have hb := h b (by simp [regsRead])
    have hc := h c (by simp [regsRead])
    simp only [exec, execLoadp, hb, hc]
    exact sameOutcome_settle fun m => sameEffect_of_regs_kept rfl
  | loadv r v => exact sameOutcome_next (sameEffect_retireReg r _)
  | invalid14 w => exact sameOutcome_raise _
  | invalid15 w => exact sameOutcome_raise _

/-- Settles O44: the second state is the first with another register file. -/
theorem onlyTheNamedRegistersAreRead : Obligations.OnlyTheNamedRegistersAreRead := by
  intro i s s' t t' hpc hstatus hmem hinput hout hcfg hreads ht ht'
  have hs' := eq_withRegs hpc hstatus hmem hinput hout hcfg
  rw [hs'] at hreads ht' ⊢
  obtain ⟨h1, h2, h3, h4, h5, h6⟩ := exec_withRegs i s s'.regs hreads t t' ht ht'
  exact ⟨h1, h2, h3, h4, h5, h6⟩

/-! ## Reset and boot (R41, R273) -/

theorem bootWords_inv {cfg : Params} (hc : cfg.valid) {image : List Word}
    (hl : image.length ≤ cfg.imageWordsMax) (arrived : List Byte) (ended : Bool) :
    (State.bootWords cfg image arrived ended).Inv where
  params := hc
  memory := by
    obtain ⟨hseg, -, himg⟩ := hc
    refine consistent_of_checks (ofWords_memory_wf image) rfl List.not_mem_nil (fun e he => ?_)
      (fun k hk => absurd hk List.not_mem_nil) (fun k h1 h2 => absurd h2 (Nat.not_le.mpr h1))
      List.nodup_nil ⟨Nat.le_refl 1, hseg⟩ fun e he => ?_
    · obtain rfl := List.mem_singleton.mp he
      exact Nat.one_pos
    · obtain rfl := List.mem_singleton.mp he
      have hlen : image.length < 2 ^ 32 := by omega
      exact hlen

/-- Boot is the reset state of an image within IMAGE_WORDS_MAX; a rejected image leaves segment 0 empty
and the run faulted (R249, R273). -/
theorem boot_cases (cfg : Params) (image arrived : List Byte) (ended : Bool) :
    (∃ ws, ws.length ≤ cfg.imageWordsMax ∧
      State.boot cfg image arrived ended = State.bootWords cfg ws arrived ended) ∨
    State.boot cfg image arrived ended = (State.bootWords cfg [] arrived ended).raise .loaderError := by
  unfold State.boot
  split
  · split_ifs with h
    · exact .inl ⟨_, h, rfl⟩
    · exact .inr rfl
  · exact .inr rfl

theorem boot_inv {cfg : Params} (hc : cfg.valid) (image arrived : List Byte) (ended : Bool) :
    (State.boot cfg image arrived ended).Inv := by
  obtain ⟨ws, hl, h⟩ | h := boot_cases cfg image arrived ended <;> rw [h]
  · exact bootWords_inv hc hl arrived ended
  · exact (bootWords_inv hc (Nat.zero_le _) arrived ended).of_eq rfl rfl

theorem deliver_inv {s : State} (h : s.Inv) (b : Byte) : (s.deliver b).Inv := by
  unfold State.deliver
  split_ifs
  · exact h
  · exact h.of_eq rfl rfl

/-- Settles O49. -/
theorem invariantsHoldAtBoot : Obligations.InvariantsHoldAtBoot :=
  ⟨fun _ image arrived ended hc => boot_inv hc image arrived ended,
    fun _ b h => ⟨deliver_inv h b, h.of_eq rfl rfl⟩⟩

/-- Segment 0 after reset is the image. -/
theorem bootWords_find_zero (cfg : Params) (image : List Word) (arrived : List Byte) (ended : Bool) :
    (State.bootWords cfg image arrived ended).mem.find 0 = some (Segment.ofWords image) := rfl

/-- No other segment is live after reset. -/
theorem bootWords_find_ne_zero (cfg : Params) (image : List Word) (arrived : List Byte) (ended : Bool)
    {i : Word} (hi : i ≠ 0) : (State.bootWords cfg image arrived ended).mem.find i = none :=
  tableGet_none fun e he => by
    obtain rfl := List.mem_singleton.mp he
    exact fun h0 => hi (BitVec.eq_of_toNat_eq h0.symm)

/-- The Words of segment 0 after reset are the image's, and there is none beyond them. -/
theorem bootWords_peek_zero (cfg : Params) (image : List Word) (arrived : List Byte) (ended : Bool)
    (o : Word) : (State.bootWords cfg image arrived ended).mem.peek 0 o = image[o.toNat]? := by
  simp only [Memory.peek, bootWords_find_zero, ofWords_read]
  by_cases ho : o.toNat < image.length
  · simp [Segment.ofWords, ho]
  · simp [Segment.ofWords, ho]

theorem bootWords_reg (cfg : Params) (image : List Word) (arrived : List Byte) (ended : Bool)
    (r : RegIdx) : (State.bootWords cfg image arrived ended).reg r = 0 := by
  simp [State.reg, State.bootWords]

/-- Settles O50: the fields R41 lists are those `bootWords` writes out; memory is read through `find`. -/
theorem resetState : Obligations.ResetState := by
  intro cfg image arrived ended
  refine ⟨bootWords_reg cfg image arrived ended, rfl, rfl, rfl, rfl,
    bootWords_peek_zero cfg image arrived ended, fun i hi => ?_, rfl, rfl, rfl, rfl, rfl, rfl⟩
  simp [Memory.live, bootWords_find_ne_zero cfg image arrived ended hi]

/-- Log 5: the model's reset state is that of the empty image. -/
theorem reset_eq_bootWords : State.reset = State.bootWords Params.idealised [] [] true := rfl

/-- Settles O48: the empty image at the idealised parameters, a case of `bootWords_inv`. -/
theorem invariantsHoldAtReset : Obligations.InvariantsHoldAtReset := by
  rw [Obligations.InvariantsHoldAtReset, reset_eq_bootWords]
  exact bootWords_inv (by decide) (Nat.zero_le _) [] true

/-- Raising a fatal condition takes it, as R128 says. -/
theorem raise_faultTaken (s : State) (c : Cause) : FaultTaken c s (s.raise c) where
  status := rfl
  registers _ := rfl
  memory := ⟨fun _ _ => rfl, rfl⟩
  input := rfl
  out := rfl
  cfg := rfl

/-- Settles O51: with no Word in segment 0, the PC check of the first step fails. -/
theorem resetHasTheEmptyProgram : Obligations.ResetHasTheEmptyProgram :=
  ⟨reset_eq_bootWords, _, rfl, raise_faultTaken State.reset (.pcOutOfBounds 0)⟩

end Sys2Proof.Machine
end

section
/-!
PROOFS. The rules of 20_memory.md: what memory answers after each operation of the segment manager, which
identifier MAP issues, the fatal conditions of identifiers and capacities, and the fetch after a store and
after a LOADP.
-/

namespace Sys2Proof.Machine

/-! ## Segments, lengths and Words after an operation -/

/-- A Word below `len(i)` is in a live segment. -/
theorem find_of_lt_lenOf {m : Memory} {i : Word} {n : Nat} (h : n < m.lenOf i) :
    ∃ g, m.find i = some g ∧ n < g.len := by
  unfold Memory.lenOf at h
  cases hg : m.find i with
  | none => simp [hg] at h
  | some g => exact ⟨g, rfl, by simpa [hg] using h⟩

theorem lenOf_of_find {m : Memory} {i : Word} {g : Segment} (h : m.find i = some g) :
    m.lenOf i = g.len := by
  simp only [Memory.lenOf, h]

theorem live_eq_false_iff {m : Memory} {i : Word} : m.live i = false ↔ m.find i = none := by
  simp [Memory.live]

/-- Equal segments read equal, across memories and identifiers. -/
theorem peek_of_find_eq {m m' : Memory} {i j : Word} (h : m'.find j = m.find i) (o : Word) :
    m'.peek j o = m.peek i o := by
  simp only [Memory.peek, h]

/-- A segment kept as it was is live or not as before, with its length and its Words (R56). -/
theorem otherSegmentsKept_of_find {k : Word} {s t : State}
    (h : ∀ i, i ≠ k → t.mem.find i = s.mem.find i) : OtherSegmentsKept k s t := by
  intro i hi
  have hf := h i hi
  exact ⟨by simp only [Memory.live, hf], by simp only [Memory.lenOf, hf], peek_of_find_eq hf⟩

/-- `Segment.zeros` gives a zero-filled segment in the sense of R51. -/
theorem zeroSegment_of_find {m : Memory} {k : Word} {n : Nat} (h : m.find k = some (Segment.zeros n)) :
    ZeroSegment m k n :=
  ⟨Option.isSome_of_eq_some h, lenOf_of_find h, fun _ ho => peek_eq_some.mpr ⟨_, h, ho, rfl⟩⟩

theorem find_unmap {m m' : Memory} {i : Word} (h : m.unmap i = .ok m') (j : Word) :
    m'.find j = if j = i then none else m.find j := by
  obtain ⟨-, -, rfl⟩ := unmap_ok.mp h
  simp only [Memory.find, tableGet_del, BitVec.toNat_inj]

/-- After LOADP of another segment, segment 0 is that segment (R55). -/
theorem find_zero_replaceZero {cfg : Params} {m m' : Memory} {i : Word} (hi : i ≠ 0)
    (h : m.replaceZero cfg i = .ok m') : m'.find 0 = m.find i := by
  obtain ⟨h0, -⟩ | ⟨-, g, hg, -, rfl⟩ := replaceZero_ok.mp h
  · exact absurd h0 hi
  · rw [hg]
    exact (tableGet_put _ _ _ _).trans (if_pos rfl)

/-! ## The choice of an identifier (R51, R214) -/

/-- No identifier is left: none is free, and the counter is at MAX_SEGMENTS. -/
theorem chooseId_none {cfg : Params} {m : Memory} :
    m.chooseId cfg = none ↔ m.free = [] ∧ m.nextId = cfg.maxSegments := by
  unfold Memory.chooseId
  rw [← pickFree_none (p := cfg.freePick)]
  cases pickFree cfg.freePick m.free with
  | none => simp
  | some k => simp

/-- An identifier issued is not 0, is below MAX_SEGMENTS, and was not live: it was free, or never issued
before. -/
theorem Memory.Consistent.chooseId_fresh {cfg : Params} {m : Memory} (h : m.Consistent cfg) {i next : Nat}
    (hi : m.chooseId cfg = some (i, next)) :
    1 ≤ i ∧ i < cfg.maxSegments ∧ tableGet m.segs i = none := by
  obtain ⟨hc1, hc2⟩ := h.counter
  rcases chooseId_some.mp hi with ⟨hp, -⟩ | ⟨-, hne, rfl, -⟩
  · have hfree : i ∈ m.free := pickFree_mem hp
    obtain ⟨h1, h2⟩ := h.issued_of_free hfree
    have hdead : ¬ (tableGet m.segs i).isSome := fun hlive => (h.issued i h1 h2).mp hlive hfree
    exact ⟨h1, by omega, by simpa using hdead⟩
  · exact ⟨hc1, by omega, (h.unissued _ le_rfl).1⟩

/-- What MAP does to the segments, in a state that meets the invariants: the identifier issued, as the Word
that MAP returns, is not 0 and had no segment; it gets a zero-filled one, and no other changes. -/
theorem State.Inv.find_map {s : State} (hs : s.Inv) {n : Word} {r : Memory × Nat}
    (h : s.mem.map s.cfg n = .ok r) :
    (BitVec.ofNat 32 r.2 : Word) ≠ 0 ∧ s.mem.find (BitVec.ofNat 32 r.2) = none ∧
      ∀ j, r.1.find j = if j = BitVec.ofNat 32 r.2 then some (Segment.zeros n.toNat) else s.mem.find j := by
  obtain ⟨i, next, hi, -, rfl⟩ := map_ok.mp h
  obtain ⟨-, hmax, -⟩ := hs.params
  obtain ⟨h1, hlt, hnone⟩ := hs.memory.chooseId_fresh hi
  have hk : (BitVec.ofNat 32 i).toNat = i := by
    rw [BitVec.toNat_ofNat]
    exact Nat.mod_eq_of_lt (hlt.trans_le hmax)
  refine ⟨fun h0 => ?_, by rw [Memory.find, hk, hnone], fun j => ?_⟩
  · have hi0 : i = 0 := by simpa [hk] using congrArg BitVec.toNat h0
    omega
  · have hj : j = BitVec.ofNat 32 i ↔ j.toNat = i := by rw [← BitVec.toNat_inj, hk]
    simp only [Memory.find, tableGet_put, hj]

/-! ## Instructions that complete, and instructions that fail a check -/

/-- An instruction that leaves the run `Running` has passed its checks. -/
theorem settle_running {α : Type} {s t : State} {r : Except Cause α} {k : α → State}
    (h : settle s r k = .next t) (ht : t.status = .running) : ∃ x, r = .ok x ∧ t = k x := by
  rcases settle_next.mp h with hok | ⟨c, -, rfl⟩
  · exact hok
  · cases ht

/-- A failed check takes its fatal condition, and changes nothing else (R127, R128). -/
theorem settle_faultTaken {α : Type} {s : State} {r : Except Cause α} {c : Cause} (h : r = .error c)
    (k : α → State) : ∃ t, settle s r k = .next t ∧ FaultTaken c s t :=
  ⟨_, settle_error h, raise_faultTaken s c⟩

/-- SSTORE to a Word that exists completes. -/
theorem exec_sstore_of_lt {s : State} {a b c : RegIdx} (h : (s.reg b).toNat < s.mem.lenOf (s.reg a)) :
    ∃ m, s.mem.store (s.reg a) (s.reg b) (s.reg c) = .ok m ∧
      exec (.sstore a b c) s = .next (s.setMem m).advance := by
  obtain ⟨g, hg, ho⟩ := find_of_lt_lenOf h
  have hm := (store_ok (v := s.reg c)).mpr ⟨g, hg, ho, rfl⟩
  exact ⟨_, hm, settle_ok hm⟩

/-- LOADP of a live segment within MAX_WORDS completes. -/
theorem exec_loadp_of_find {s : State} {b c : RegIdx} {g : Segment} (hb : s.reg b ≠ 0)
    (hg : s.mem.find (s.reg b) = some g)
    (hcap : ¬ ExceedsWords s.cfg (s.mem.wordsInUse - s.mem.lenOf 0 + s.mem.lenOf (s.reg b))) :
    ∃ m, s.mem.replaceZero s.cfg (s.reg b) = .ok m ∧
      exec (.loadp b c) s = .next ((s.setMem m).setPc (s.reg c)) := by
  rw [exceedsWords_iff, lenOf_of_find hg, Bool.not_eq_true] at hcap
  have hm := replaceZero_ok.mpr (.inr ⟨hb, g, hg, hcap, rfl⟩)
  exact ⟨_, hm, settle_ok hm⟩

/-! ## Only four instructions change memory (R70) -/

/-- Memory after an instruction that is not one of R70's four. -/
theorem exec_mem_of_not_writesMemory {i : Instr} {s t : State} (h : exec i s = .next t)
    (hw : writesMemory i = false) : t.mem = s.mem := by
  cases i with
  | cmov a b c =>
    simp only [exec, execCmov] at h
    split_ifs at h <;> cases h <;> rfl
  | sload a b c => obtain ⟨v, -, rfl⟩ | ⟨e, -, rfl⟩ := settle_next.mp h <;> rfl
  | sstore a b c => cases hw
  | add a b c => cases h; rfl
  | mul a b c => cases h; rfl
  | div a b c =>
    simp only [exec, execDiv] at h
    split_ifs at h <;> cases h <;> rfl
  | nand a b c => cases h; rfl
  | halt => cases h; rfl
  | map b c => cases hw
  | unmap c => cases hw
  | out c =>
    simp only [exec, execOut] at h
    split_ifs at h <;> cases h <;> rfl
  | inp c =>
    simp only [exec, execIn] at h
    split at h <;> cases h <;> rfl
  | loadp b c => cases hw
  | loadv r v => cases h; rfl
  | invalid14 w => cases h; rfl
  | invalid15 w => cases h; rfl

/-- Settles O45: equal memories read equal. -/
theorem onlyFourInstructionsChangeMemory : Obligations.OnlyFourInstructionsChangeMemory := by
  intro i s t h hw
  have hm := exec_mem_of_not_writesMemory h hw
  exact ⟨fun i o => by rw [hm], hm⟩

/-! ## MAP: the capacities, and the identifier it returns (R51, R56) -/

/-- The checks of MAP that fail, in the words of R51. -/
theorem map_error_iff_exhausted {cfg : Params} {m : Memory} {n : Word} {c : Cause} :
    m.map cfg n = .error c ↔ c = .resourceExhausted n.toNat ∧
      ((m.free = [] ∧ m.nextId = cfg.maxSegments) ∨ ExceedsWords cfg (m.wordsInUse + n.toNat)) := by
  rw [map_error, chooseId_none, exceedsWords_iff]

theorem encode_map_toNat (b c : RegIdx) :
    (encode (.map b c)).toNat = 0x80000000 + b.toNat * 8 + c.toNat :=
  standardWord_toNat (by decide) 0 b c

/-- Settles O30: MAP's checks fail exactly on exhaustion, and a MAP that passes them keeps the status. -/
theorem mapExhaustionIsFatal : Obligations.MapExhaustionIsFatal := by
  intro b c s
  refine ⟨encode_map_toNat b c, fun hex => ?_, fun t h hst => ?_⟩
  · exact settle_faultTaken (map_error_iff_exhausted.mpr ⟨rfl, hex⟩) _
  · rcases settle_next.mp h with ⟨r, -, rfl⟩ | ⟨e, he, -⟩
    · exact absurd rfl hst
    · exact (map_error_iff_exhausted.mp he).2

/-- A MAP that completes: the identifier returned is not 0 and had no segment; it gets a zero-filled one,
and no other changes. -/
theorem exec_map_running {b c : RegIdx} {s t : State} (hs : s.Inv) (h : exec (.map b c) s = .next t)
    (ht : t.status = .running) :
    t.reg b ≠ 0 ∧ s.mem.find (t.reg b) = none ∧
      ∀ j, t.mem.find j =
        if j = t.reg b then some (Segment.zeros (s.reg c).toNat) else s.mem.find j := by
  obtain ⟨r, hr, rfl⟩ := settle_running h ht
  rw [reg_retireReg_self]
  exact hs.find_map hr

/-- UNMAP keeps every segment but the one it names (R56). -/
theorem exec_unmap_otherSegmentsKept {c : RegIdx} {s t : State} (h : exec (.unmap c) s = .next t) :
    OtherSegmentsKept (s.reg c) s t := by
  refine otherSegmentsKept_of_find fun i hi => ?_
  obtain ⟨m, hm, rfl⟩ | ⟨e, -, rfl⟩ := settle_next.mp h
  · exact (find_unmap hm i).trans (if_neg hi)
  · rfl

/-- Settles O32: MAP puts its new segment where none was, and UNMAP deletes only the one it names. -/
theorem mapNeverAliases : Obligations.MapNeverAliases := by
  refine ⟨fun b c s t hs h ht => ?_, fun c s t h => exec_unmap_otherSegmentsKept h⟩
  obtain ⟨hne, hnone, hfind⟩ := exec_map_running hs h ht
  have hnew := (hfind (t.reg b)).trans (if_pos rfl)
  exact ⟨live_eq_false_iff.mpr hnone, Option.isSome_of_eq_some hnew, hne,
    otherSegmentsKept_of_find fun i hi => (hfind i).trans (if_neg hi)⟩

/-! ## Dead identifiers (R57) -/

/-- After an UNMAP that completes, the identifier is dead. -/
theorem exec_unmap_not_live {c : RegIdx} {s t : State} (h : exec (.unmap c) s = .next t)
    (ht : t.status = .running) : t.mem.live (s.reg c) = false := by
  obtain ⟨m, hm, rfl⟩ := settle_running h ht
  exact live_eq_false_iff.mpr ((find_unmap hm _).trans (if_pos rfl))

/-- Under LIFO the identifier issued is the last on the free list, the one unmapped most recently (D3). -/
theorem map_id_of_lifo {cfg : Params} {m : Memory} {n : Word} {r : Memory × Nat} (hp : cfg.freePick = .lifo)
    {free : List Nat} {k : Nat} (hf : m.free = free ++ [k]) (h : m.map cfg n = .ok r) : r.2 = k := by
  obtain ⟨i, next, hi, -, rfl⟩ := map_ok.mp h
  rcases chooseId_some.mp hi with ⟨hpick, -⟩ | ⟨hnil, -⟩
  · simpa [hp, hf, pickFree, eq_comm] using hpick
  · simp [hf] at hnil

/-- Under LIFO, MAP right after UNMAP returns the identifier unmapped. -/
theorem exec_map_after_unmap {b c d : RegIdx} {s t u : State} (hp : s.cfg.freePick = .lifo)
    (h : exec (.unmap c) s = .next t) (ht : t.status = .running) (h' : exec (.map b d) t = .next u)
    (hu : u.status = .running) : u.reg b = s.reg c := by
  obtain ⟨m, hm, rfl⟩ := settle_running h ht
  obtain ⟨-, -, rfl⟩ := unmap_ok.mp hm
  obtain ⟨r, hr, rfl⟩ := settle_running h' hu
  have hk : r.2 = (s.reg c).toNat := map_id_of_lifo hp rfl hr
  rw [reg_retireReg_self, hk, BitVec.ofNat_toNat, BitVec.setWidth_eq]

/-- Settles O33: the checks of the four operations that name a dead identifier fail on liveness. -/
theorem deadIdentifiersAreFatal : Obligations.DeadIdentifiersAreFatal := by
  refine ⟨fun b c s t hs h ht => ?_, fun c s t h ht => exec_unmap_not_live h ht,
    fun b c d s t u hp h ht h' hu => exec_map_after_unmap hp h ht h' hu, fun k u hk hdead => ?_⟩
  · obtain ⟨-, -, hfind⟩ := exec_map_running hs h ht
    exact zeroSegment_of_find ((hfind _).trans (if_pos rfl))
  · have hnone := live_eq_false_iff.mp hdead
    refine ⟨?sload, ?sstore, ?unmap, ?loadp⟩
    case sload => rintro a b c rfl; exact settle_faultTaken (load_error.mpr (.inl ⟨hnone, rfl⟩)) _
    case sstore => rintro a b c rfl; exact settle_faultTaken (store_error.mpr (.inl ⟨hnone, rfl⟩)) _
    case unmap => rintro c rfl; exact settle_faultTaken (unmap_error.mpr (.inr ⟨hk, hdead, rfl⟩)) _
    case loadp =>
      rintro b c rfl
      exact settle_faultTaken (replaceZero_error.mpr ⟨hk, .inl ⟨hnone, rfl⟩⟩) _

/-! ## The fetch after a store and after a LOADP (R68) -/

/-- A step runs the Word that can be read at the pc, whatever wrote it. -/
theorem step_of_peek {s : State} {w : Word} (hs : s.status = .running)
    (h : s.mem.peek 0 s.pc = some w) : step s = exec (decode w) s := by
  obtain ⟨hpc, hw⟩ := fetch_of_peek h
  rw [step_running hs, State.stepRunning, hpc, State.fetch, hw]
  rfl

/-- The Word an SSTORE wrote to segment 0 is what any later fetch from its offset runs. -/
theorem fetch_after_sstore {s : State} {a b c : RegIdx} (ha : s.reg a = 0)
    (hb : (s.reg b).toNat < s.mem.lenOf 0) :
    ∃ m, exec (.sstore a b c) s = .next (s.setMem m).advance ∧
      ∀ u : State, u.mem = m → u.status = .running → u.pc = s.reg b →
        step u = exec (decode (s.reg c)) u := by
  obtain ⟨m, hm, hexec⟩ := exec_sstore_of_lt (c := c) (ha ▸ hb)
  refine ⟨m, hexec, fun u humem hrun hpc => step_of_peek hrun ?_⟩
  rw [humem, hpc, peek_store hm, ha, if_pos ⟨rfl, rfl⟩]

/-- Settles O18: a store to the next Word and a LOADP are steps after which the new Word is at the pc. -/
theorem fetchSeesStoresAndLoads : Obligations.FetchSeesStoresAndLoads := by
  refine ⟨fun s a b c ha hb => ?later, fun s w a b c hrun hw hdec ha hb hlt => ?next,
    fun s w v b c hrun hw hdec hb hcap hv => ?loadp⟩
  case later =>
    obtain ⟨m, hexec, hfetch⟩ := fetch_after_sstore ha hb
    exact ⟨_, hexec, hfetch⟩
  case next =>
    obtain ⟨m, hexec, hfetch⟩ := fetch_after_sstore (c := c) ha (hb ▸ hlt)
    have hstep : step s = .next (s.setMem m).advance := by rw [step_of_peek hrun hw, hdec, hexec]
    exact ⟨_, hstep, rfl, hfetch _ rfl hrun hb.symm⟩
  case loadp =>
    obtain ⟨g, hg, -, -⟩ := peek_eq_some.mp hv
    obtain ⟨m, hm, hexec⟩ := exec_loadp_of_find (c := c) hb hg hcap
    have hstep : step s = .next ((s.setMem m).setPc (s.reg c)) := by
      rw [step_of_peek hrun hw, hdec, hexec]
    have hnew : m.peek 0 (s.reg c) = some v :=
      (peek_of_find_eq (find_zero_replaceZero hb hm) _).trans hv
    exact ⟨_, hstep, rfl, step_of_peek hrun hnew⟩

end Sys2Proof.Machine
end

section
/-!
PROOFS. The rules of 30_encoding.md: the extractor bit by bit, the decoder's tagged result and its invalid
Words, and the decoder and the encoder as inverses up to the ignored bits.
-/

namespace Sys2Proof.Machine

/-! ## The bit-field extractor (R90 to R96) -/

/-- Bit `k` of an extracted field is bit `lsb + k` of the Word. -/
theorem extract_getLsbD (w : Word) {width lsb : Nat} (h : width + lsb ≤ 32) (k : Nat) :
    (extract w width lsb).getLsbD k = (decide (k < width) && w.getLsbD (lsb + k)) := by
  have hk : k < width → k < 32 := by omega
  simp only [extract, BitVec.getLsbD_ofNat, Nat.testBit_mod_two_pow, Nat.testBit_div_two_pow,
    BitVec.testBit_toNat, Nat.add_comm k lsb]
  by_cases hw : k < width
  · simp [hw, hk hw]
  · simp [hw]

theorem extract_whole (w : Word) : extract w 32 0 = w := by
  apply BitVec.eq_of_toNat_eq
  rw [extract_toNat le_rfl, Nat.pow_zero, Nat.div_one, Nat.mod_eq_of_lt w.isLt]

theorem extract_width_zero (w : Word) (lsb : Nat) : extract w 0 lsb = 0 := by
  simp [extract, Nat.mod_one]

/-- Settles O7. -/
theorem extractSelectsField : Obligations.ExtractSelectsField :=
  ⟨fun w _ _ k h => extract_getLsbD w h k, extract_whole, fun w lsb _ => extract_width_zero w lsb⟩

/-- Inside R91's precondition the general `extract` answers the field. -/
theorem extractOrFault_ok (w : Word) {width lsb : Nat} (h : width + lsb ≤ 32) :
    extractOrFault w width lsb = .ok (extract w width lsb) :=
  if_neg (Nat.not_lt.mpr h)

/-- Settles O8: the check of the general `extract` is the precondition of R91. -/
theorem extractRangeIsFatal : Obligations.ExtractRangeIsFatal := by
  refine ⟨fun w width lsb h => if_pos h, fun w width lsb h => extractOrFault_ok w h,
    fun w p hp => ?_⟩
  have inside : ∀ p ∈ [(4, 28), (3, 6), (3, 3), (3, 0), (3, 25), (25, 0)], p.1 + p.2 ≤ 32 := by
    decide
  exact extractOrFault_ok w (inside p hp)

/-- A number cut into the bits above a field, the field and the bits below it: replacing the field leaves
the other two parts. -/
theorem replace_field (n width lsb x : Nat) :
    n - n / 2 ^ lsb % 2 ^ width * 2 ^ lsb + x * 2 ^ lsb =
      2 ^ lsb * (2 ^ width * (n / 2 ^ lsb / 2 ^ width) + x) + n % 2 ^ lsb := by
  have hn : 2 ^ lsb * (2 ^ width * (n / 2 ^ lsb / 2 ^ width)) + n / 2 ^ lsb % 2 ^ width * 2 ^ lsb +
      n % 2 ^ lsb = n := by
    rw [Nat.mul_comm (n / 2 ^ lsb % 2 ^ width), ← Nat.mul_add, Nat.div_add_mod, Nat.div_add_mod]
  rw [Nat.mul_add, Nat.mul_comm (2 ^ lsb) x]
  omega

/-- The bits after `insertField`: those of the value inside the field, the old ones outside it. -/
theorem insertField_getLsbD (w : Word) {width lsb : Nat} (h : width + lsb ≤ 32) (v k : Nat) :
    (insertField w width lsb v).getLsbD k =
      if lsb ≤ k ∧ k < lsb + width then v.testBit (k - lsb) else w.getLsbD k := by
  have hf : (extract w width lsb).toNat = w.toNat / 2 ^ lsb % 2 ^ width := extract_toNat (by omega)
  rw [insertField, hf, replace_field, BitVec.getLsbD_ofNat,
    Nat.testBit_two_pow_mul_add _ (Nat.mod_lt _ (Nat.two_pow_pos _)),
    Nat.testBit_two_pow_mul_add _ (Nat.mod_lt _ (Nat.two_pow_pos _))]
  simp only [Nat.testBit_mod_two_pow, Nat.testBit_div_two_pow, BitVec.testBit_toNat]
  by_cases hlow : k < lsb
  · have hk : k < 32 := by omega
    simp [hlow, hk]
  · by_cases hmid : k - lsb < width
    · have hin : lsb ≤ k ∧ k < lsb + width := by omega
      have hk : k < 32 := by omega
      simp [hlow, hmid, hin, hk]
    · have hout : ¬ (lsb ≤ k ∧ k < lsb + width) := by omega
      have hk : k - lsb - width + width + lsb = k := by omega
      simp only [hlow, hmid, hout, hk, if_false]
      by_cases h32 : k < 32
      · simp [h32]
      · simp [h32, BitVec.getLsbD_of_ge w k (Nat.not_lt.mp h32)]

/-- The field reads back as the value put in it. -/
theorem extract_insertField (w : Word) {width lsb v : Nat} (h : width + lsb ≤ 32) (hv : v < 2 ^ width) :
    (extract (insertField w width lsb v) width lsb).toNat = v := by
  apply Nat.eq_of_testBit_eq
  intro k
  rw [BitVec.testBit_toNat, extract_getLsbD _ h, insertField_getLsbD w h]
  by_cases hk : k < width
  · simp [hk]
  · have hbit : v.testBit k = false :=
      Nat.testBit_lt_two_pow (hv.trans_le (Nat.pow_le_pow_right (by decide) (Nat.not_lt.mp hk)))
    simp [hk, hbit]

/-- A value that fits is a number below `2 ^ width` (R96). -/
theorem fitsUnsigned_iff {v : Int} {width : Nat} :
    fitsUnsigned v width = true ↔ ∃ n : Nat, v = n ∧ n < 2 ^ width := by
  rw [fitsUnsigned, decide_eq_true_iff]
  constructor
  · rintro ⟨h0, h1⟩
    obtain ⟨n, rfl⟩ := Int.eq_ofNat_of_zero_le h0
    exact ⟨n, rfl, by exact_mod_cast h1⟩
  · rintro ⟨n, rfl, hn⟩
    exact ⟨Int.natCast_nonneg n, by exact_mod_cast hn⟩

/-- `set_unsigned` of a value that fits answers the Word with the field replaced. -/
theorem setUnsigned_ok (w : Word) {width lsb : Nat} {v : Int} (h : width + lsb ≤ 32)
    (hv : fitsUnsigned v width = true) :
    setUnsigned w width lsb v = .ok (insertField w width lsb v.toNat) := by
  rw [setUnsigned, if_neg (Nat.not_lt.mpr h), if_pos hv]

/-- Settles O9: the field reads back, and a bit outside it is not in the field. -/
theorem setUnsignedThenGet : Obligations.SetUnsignedThenGet := by
  intro w width lsb v h hfits
  obtain ⟨n, rfl, hn⟩ := fitsUnsigned_iff.mp hfits
  refine ⟨_, _, setUnsigned_ok w h hfits, extractOrFault_ok _ h, ?_, fun k hk => ?_⟩
  · exact congrArg Nat.cast (extract_insertField w h hn)
  · rw [insertField_getLsbD w h, if_neg (by omega)]

/-! ## The decoder's tagged result (R100, R101, R104) -/

theorem decodeFields_standard {w : Word} (h : w.toNat / 2 ^ 28 ≤ 12) :
    decodeFields w = .standard (fieldOp w) (fieldA w) (fieldB w) (fieldC w) := by
  rw [decodeFields, fieldOp_toNat, if_pos h]

theorem decodeFields_loadValue {w : Word} (h : w.toNat / 2 ^ 28 = 13) :
    decodeFields w = .loadValue (fieldReg w) (fieldValue w) := by
  rw [decodeFields, fieldOp_toNat, h, if_neg (by decide), if_pos rfl]

theorem decodeFields_invalid {w : Word} (h : 14 ≤ w.toNat / 2 ^ 28) : decodeFields w = .invalid := by
  rw [decodeFields, fieldOp_toNat, if_neg (by omega), if_neg (by omega)]

/-- Settles O4: the three layouts, with the numbers of their fields. -/
theorem decoderTagsByOpcode : Obligations.DecoderTagsByOpcode := fun w =>
  ⟨fun h => ⟨_, _, _, _, decodeFields_standard h, fieldOp_toNat w, fieldA_toNat w, fieldB_toNat w,
      fieldC_toNat w⟩,
    fun h => ⟨_, _, decodeFields_loadValue h, fieldReg_toNat w, fieldValue_toNat w⟩,
    decodeFields_invalid⟩

theorem decodeFields_eq_invalid_iff {w : Word} : decodeFields w = .invalid ↔ 14 ≤ w.toNat / 2 ^ 28 := by
  refine ⟨fun h => ?_, decodeFields_invalid⟩
  by_contra hop
  obtain h12 | h13 : w.toNat / 2 ^ 28 ≤ 12 ∨ w.toNat / 2 ^ 28 = 13 := by omega
  · rw [decodeFields_standard h12] at h
    cases h
  · rw [decodeFields_loadValue h13] at h
    cases h

theorem decode_loadv {w : Word} (h : w.toNat / 2 ^ 28 = 13) :
    decode w = .loadv (fieldReg w) (fieldValue w) := by
  rw [decode, decodeFields_loadValue h]

theorem decode_invalid14 {w : Word} (h : w.toNat / 2 ^ 28 = 14) : decode w = .invalid14 w := by
  rw [decode, decodeFields_invalid h.ge]
  exact if_pos ((fieldOp_toNat w).trans h)

theorem decode_invalid15 {w : Word} (h : w.toNat / 2 ^ 28 = 15) : decode w = .invalid15 w := by
  rw [decode, decodeFields_invalid (by omega)]
  exact if_neg (by rw [fieldOp_toNat]; omega)

/-- Settles O13: the Words from 0xE0000000 on are those of opcodes 14 and 15. -/
theorem invalidOpcodeIsFatal : Obligations.InvalidOpcodeIsFatal := by
  refine ⟨fun w => ?_, fun w h => ?_, fun w s => ⟨_, rfl, raise_faultTaken s _⟩,
    fun w s => ⟨_, rfl, raise_faultTaken s _⟩⟩
  · rw [decodeFields_eq_invalid_iff]
    omega
  · have hw := w.isLt
    obtain h14 | h15 : w.toNat / 2 ^ 28 = 14 ∨ w.toNat / 2 ^ 28 = 15 := by omega
    · exact .inl (decode_invalid14 h14)
    · exact .inr (decode_invalid15 h15)

/-- Settles O6: fixed Words, evaluated. -/
theorem writtenWordsDecode : Obligations.WrittenWordsDecode := by
  unfold Obligations.WrittenWordsDecode
  decide

/-! ## Well-formed instructions (R102, R104) -/

/-- The operations of the Standard layout are well formed whatever their fields. -/
theorem standardInstr_wellFormed (w : Word) {op : BitVec 4} (h : op.toNat ≤ 12) (a b c : RegIdx) :
    WellFormed (standardInstr w op a b c) := by
  unfold standardInstr
  generalize op.toNat = n at h
  interval_cases n <;> rfl

/-- Settles O5: an invalid Word has the opcode of its row. -/
theorem decodedIsWellFormed : Obligations.DecodedIsWellFormed := by
  intro w
  obtain ⟨h, hd⟩ | ⟨-, hd⟩ | ⟨h, hd⟩ | ⟨h, hd⟩ := decode_cases w <;> rw [hd]
  · exact standardInstr_wellFormed w (by rwa [fieldOp_toNat]) _ _ _
  · rfl
  · exact beq_iff_eq.mpr h
  · exact beq_iff_eq.mpr h

/-! ## Decoding a canonical Word (R112) -/

theorem decode_encode_loadv (r : RegIdx) (v : Imm25) : decode (encode (.loadv r v)) = .loadv r v := by
  have hr := r.isLt
  have hv := v.isLt
  have hw := encode_loadv_toNat r v
  rw [decode_loadv (by omega)]
  congr 1
  · apply BitVec.eq_of_toNat_eq
    rw [fieldReg_toNat, hw]
    omega
  · apply BitVec.eq_of_toNat_eq
    rw [fieldValue_toNat, hw]
    omega

/-- Settles O1: a Standard Word selects its operation by `op` and carries its fields; a LOADV Word carries
its two; an invalid instruction is its own Word. -/
theorem decodeInvertsEncode : Obligations.DecodeInvertsEncode := by
  intro i h
  cases i with
  | cmov a b c => exact decode_standardWord (by decide) a b c
  | sload a b c => exact decode_standardWord (by decide) a b c
  | sstore a b c => exact decode_standardWord (by decide) a b c
  | add a b c => exact decode_standardWord (by decide) a b c
  | mul a b c => exact decode_standardWord (by decide) a b c
  | div a b c => exact decode_standardWord (by decide) a b c
  | nand a b c => exact decode_standardWord (by decide) a b c
  | halt => exact decode_standardWord (by decide) 0 0 0
  | map b c => exact decode_standardWord (by decide) 0 b c
  | unmap c => exact decode_standardWord (by decide) 0 0 c
  | out c => exact decode_standardWord (by decide) 0 0 c
  | inp c => exact decode_standardWord (by decide) 0 0 c
  | loadp b c => exact decode_standardWord (by decide) 0 b c
  | loadv r v => exact decode_encode_loadv r v
  | invalid14 w => exact decode_invalid14 (beq_iff_eq.mp h)
  | invalid15 w => exact decode_invalid15 (beq_iff_eq.mp h)

/-! ## Encoding what a Word decodes to: the ignored bits (R105, R106) -/

/-- How many low bits of a Word its operation uses, by opcode: the fields of an operation are adjacent,
from bit 0 up, and its ignored bits fill the gap to the opcode. -/
def usedBits : Nat → Nat
  | 7 => 0
  | 8 => 6
  | 9 => 3
  | 10 => 3
  | 11 => 3
  | 12 => 6
  | 13 => 28
  | 14 => 28
  | 15 => 28
  | _ => 9

theorem usedBits_le (op : Nat) : usedBits op ≤ 28 := by
  unfold usedBits
  split <;> decide

theorem usedBits_le_of_standard {op : Nat} (h : op ≤ 12) : usedBits op ≤ 9 := by
  interval_cases op <;> decide

/-- The ignored bits are those from `usedBits` up to bit 27. -/
theorem ignoredMask_eq (w : Word) :
    ignoredMask w = BitVec.ofNat 32 (2 ^ 28 - 2 ^ usedBits (w.toNat / 2 ^ 28)) := by
  have hop : w.toNat / 2 ^ 28 < 16 := by have := w.isLt; omega
  unfold ignoredMask
  rw [fieldOp_toNat]
  generalize w.toNat / 2 ^ 28 = op at hop
  interval_cases op <;> rfl

/-- Bits `j` to 27, as the number `2 ^ 28 - 2 ^ j`. -/
theorem testBit_gap {j : Nat} (hj : j ≤ 28) (k : Nat) :
    (2 ^ 28 - 2 ^ j).testBit k = (decide (j ≤ k) && decide (k < 28)) := by
  have hgap : 2 ^ 28 - 2 ^ j = 2 ^ j * (2 ^ (28 - j) - 1) := by
    rw [Nat.mul_sub_one, ← Nat.pow_add, Nat.add_sub_cancel' hj]
  rw [hgap, Nat.testBit_two_pow_mul, Nat.testBit_two_pow_sub_one]
  by_cases hk : j ≤ k
  · have hlt : k - j < 28 - j ↔ k < 28 := by omega
    simp [hk, hlt]
  · simp [hk]

theorem ignoredMask_getLsbD (w : Word) (k : Nat) : (ignoredMask w).getLsbD k =
    (decide (usedBits (w.toNat / 2 ^ 28) ≤ k) && decide (k < 28)) := by
  have h32 : k < 28 → k < 32 := by omega
  rw [ignoredMask_eq, BitVec.getLsbD_ofNat, testBit_gap (usedBits_le _)]
  by_cases hk : k < 28
  · simp [hk, h32 hk]
  · simp [hk]

/-- Clearing the ignored bits keeps the opcode and the bits the operation uses. -/
theorem clear_ignored_toNat (w : Word) : (w &&& ~~~ignoredMask w).toNat =
    w.toNat / 2 ^ 28 * 2 ^ 28 + w.toNat % 2 ^ usedBits (w.toNat / 2 ^ 28) := by
  have hlow : w.toNat % 2 ^ usedBits (w.toNat / 2 ^ 28) < 2 ^ 28 :=
    (Nat.mod_lt _ (Nat.two_pow_pos _)).trans_le (Nat.pow_le_pow_right (by decide) (usedBits_le _))
  apply Nat.eq_of_testBit_eq
  intro k
  rw [Nat.mul_comm, Nat.testBit_two_pow_mul_add _ hlow, Nat.testBit_mod_two_pow,
    Nat.testBit_div_two_pow, BitVec.testBit_toNat, BitVec.testBit_toNat, BitVec.testBit_toNat,
    BitVec.getLsbD_and, BitVec.getLsbD_not, ignoredMask_getLsbD]
  by_cases h28 : k < 28
  · have h32 : k < 32 := by omega
    simp [h28, h32, Bool.and_comm, ← decide_not]
  · have hk : k - 28 + 28 = k := by omega
    by_cases h32 : k < 32
    · simp [h28, hk, h32]
    · simp [h28, hk, h32, BitVec.getLsbD_of_ge w k (Nat.not_lt.mp h32)]

/-- The canonical Word of a Standard operation holds the opcode and the fields the operation uses. -/
theorem encode_standardInstr_toNat (w : Word) {op : BitVec 4} (h : op.toNat ≤ 12) (a b c : RegIdx) :
    (encode (standardInstr w op a b c)).toNat =
      op.toNat * 2 ^ 28 + (a.toNat * 64 + b.toNat * 8 + c.toNat) % 2 ^ usedBits op.toNat := by
  have ha := a.isLt
  have hb := b.isLt
  have hc := c.isLt
  have h0 : (0 : RegIdx).toNat = 0 := rfl
  unfold standardInstr
  generalize op.toNat = n at h
  interval_cases n <;> simp (disch := decide) only [encode, usedBits, standardWord_toNat] <;> omega

/-- Encoding what a Word decodes to keeps its opcode and the bits its operation uses. -/
theorem encode_decode_toNat (w : Word) : (encode (decode w)).toNat =
    w.toNat / 2 ^ 28 * 2 ^ 28 + w.toNat % 2 ^ usedBits (w.toNat / 2 ^ 28) := by
  obtain ⟨h, hd⟩ | ⟨h, hd⟩ | ⟨h, hd⟩ | ⟨h, hd⟩ := decode_cases w <;> rw [hd]
  · have hused : usedBits (w.toNat / 2 ^ 28) ≤ 9 := usedBits_le_of_standard h
    have hfields : (w.toNat / 2 ^ 6 % 8 * 64 + w.toNat / 2 ^ 3 % 8 * 8 + w.toNat % 8) =
        w.toNat % 2 ^ 9 := by omega
    rw [encode_standardInstr_toNat w (by rwa [fieldOp_toNat]), fieldOp_toNat, fieldA_toNat,
      fieldB_toNat, fieldC_toNat, hfields, Nat.mod_mod_of_dvd _ (Nat.pow_dvd_pow 2 hused)]
  · rw [encode_loadv_toNat, fieldReg_toNat, fieldValue_toNat, h, usedBits]
    omega
  · rw [encode, h, usedBits]
    omega
  · rw [encode, h, usedBits]
    omega

/-- R112: encoding what a Word decodes to clears its ignored bits, and nothing else. -/
theorem encode_decode (w : Word) : encode (decode w) = w &&& ~~~ignoredMask w := by
  apply BitVec.eq_of_toNat_eq
  rw [encode_decode_toNat, clear_ignored_toNat]

/-- Clearing bits changes nothing exactly when they are clear. -/
theorem and_not_eq_self_iff (w m : Word) : w &&& ~~~m = w ↔ w &&& m = 0 := by
  constructor
  · intro h
    rw [← h, BitVec.and_assoc, BitVec.and_comm (~~~m), BitVec.and_not_self]
    exact BitVec.and_zero
  · intro h
    have hsplit : w &&& ~~~m ||| w &&& m = w := by
      rw [← BitVec.and_or_distrib_left, BitVec.or_comm, BitVec.or_not_self, BitVec.and_allOnes]
    rw [h] at hsplit
    exact BitVec.or_zero.symm.trans hsplit

/-- Settles O2: clearing the ignored bits changes nothing exactly when they are zero. -/
theorem encodeInvertsDecodeOnCanonical : Obligations.EncodeInvertsDecodeOnCanonical := by
  intro w
  rw [encode_decode]
  exact and_not_eq_self_iff w (ignoredMask w)

/-- Words with the same canonical Word decode to the same instruction. -/
theorem decode_eq_of_encode_eq {w w' : Word} (h : encode (decode w) = encode (decode w')) :
    decode w = decode w' := by
  rw [← decodeInvertsEncode _ (decodedIsWellFormed w), h, decodeInvertsEncode _ (decodedIsWellFormed w')]

/-- A Word with its ignored bits replaced by those of `u`. -/
def replaceIgnored (w u : Word) : Word := (w &&& ~~~ignoredMask w) ||| (u &&& ignoredMask w)

/-- The bits of the opcode are not ignored. -/
theorem fieldOp_replaceIgnored (w u : Word) : fieldOp (replaceIgnored w u) = fieldOp w := by
  apply BitVec.eq_of_getLsbD_eq
  intro k hk
  have hmask : (ignoredMask w).getLsbD (28 + k) = false := by simp [ignoredMask_getLsbD]
  have h32 : 28 + k < 32 := by omega
  simp only [fieldOp, BitVec.getLsbD_setWidth, extract_getLsbD _ (show 4 + 28 ≤ 32 by decide),
    replaceIgnored, BitVec.getLsbD_or, BitVec.getLsbD_and, BitVec.getLsbD_not, hmask, h32]
  simp

/-- The Word with its ignored bits replaced has the same canonical Word. -/
theorem decode_replaceIgnored (w u : Word) : decode (replaceIgnored w u) = decode w := by
  apply decode_eq_of_encode_eq
  have hmask : ignoredMask (replaceIgnored w u) = ignoredMask w := by
    simp only [ignoredMask, fieldOp_replaceIgnored]
  have hclear : u &&& ignoredMask w &&& ~~~ignoredMask w = 0 := by
    rw [BitVec.and_assoc, BitVec.and_not_self]
    exact BitVec.and_zero
  rw [encode_decode, encode_decode, hmask, replaceIgnored, BitVec.and_or_distrib_right, hclear,
    BitVec.and_assoc, BitVec.and_self]
  exact BitVec.or_zero

/-- Bits 27:9 of a Standard Word are ignored (R105). -/
theorem ignoredMask_standard (w : Word) (h : w.toNat / 2 ^ 28 ≤ 12) :
    0x0FFFFE00 &&& ignoredMask w = 0x0FFFFE00 := by
  unfold ignoredMask
  rw [fieldOp_toNat]
  generalize w.toNat / 2 ^ 28 = op at h
  interval_cases op <;> rfl

/-- Settles O3: replacing the ignored bits keeps the canonical Word, and a canonical Word is what its own
instruction encodes to, so O2 says that its ignored bits are zero. -/
theorem ignoredBitsHaveNoEffect : Obligations.IgnoredBitsHaveNoEffect := by
  refine ⟨decode_replaceIgnored, ignoredMask_standard, fun i h => ?_, by decide, by decide, by decide⟩
  rw [← encodeInvertsDecodeOnCanonical, decodeInvertsEncode i h]

end Sys2Proof.Machine
end

section
/-!
PROOFS. The rules of 40_execution_step.md: the PC check, fetch and dispatch of a step, the step of an ended
run and of a waiting IN, precise faults, and the pc after an instruction.
-/

namespace Sys2Proof.Machine

/-! ## The step, by run status (R120, R121, R129) -/

/-- Settles O10: the Word that can be read at the pc is the one fetched. -/
theorem stepRunsDecodedInstruction : Obligations.StepRunsDecodedInstruction :=
  fun _ _ => step_of_peek

theorem step_halted {s : State} (h : s.status = .halted) : step s = .fault .runHalted := by
  rw [step, h]

theorem step_faulted {s : State} {c : Cause} {p : Word} (h : s.status = .faulted c p) :
    step s = .fault (.runFaulted c p) := by
  rw [step, h]

/-- A PC check that fails takes PcOutOfBounds (R121). -/
theorem step_of_pcOutside {s : State} (hs : s.status = .running) (h : s.pcOutside = true) :
    step s = .next (s.raise (.pcOutOfBounds s.pc)) := by
  rw [step_running hs, State.stepRunning, if_pos h]

/-- A PC check that passes leads to the instruction fetched (R122 to R125). -/
theorem step_of_pcInside {s : State} (hs : s.status = .running) (h : s.pcOutside = false) :
    step s = exec s.fetch s := by
  rw [step_running hs, State.stepRunning, h, if_neg Bool.false_ne_true]

theorem exists_step_of_running {s : State} (hs : s.status = .running) : ∃ t, step s = .next t := by
  cases hpc : s.pcOutside with
  | true => exact ⟨_, step_of_pcOutside hs hpc⟩
  | false =>
    obtain ⟨t, ht, -⟩ := exec_effect s.fetch s
    exact ⟨t, (step_of_pcInside hs hpc).trans ht⟩

/-- Settles O11: the PC check fails, and its fatal condition changes nothing else. -/
theorem pcBoundIsChecked : Obligations.PcBoundIsChecked :=
  fun s hs hpc => ⟨_, step_of_pcOutside hs (decide_eq_true hpc), raise_faultTaken s _⟩

/-! ## An IN that waits (R193, R195) -/

theorem take_of_inputWaits {s : State} (h : s.InputWaits) : s.input.take = .notArrived := by
  obtain ⟨hpending, hended⟩ := h
  simp [InStream.take, hpending, hended]

/-- A waiting IN changes nothing, the pc included (log 7). -/
theorem exec_inp_of_inputWaits {s : State} (h : s.InputWaits) (c : RegIdx) :
    exec (.inp c) s = .next s := by
  rw [exec, execIn, take_of_inputWaits h]

/-- Settles O12: the step by run status, and a waiting IN as the instruction at the pc. -/
theorem terminalStatesHaveNoStep : Obligations.TerminalStatesHaveNoStep :=
  ⟨fun _ => step_halted, fun _ _ _ => step_faulted, fun _ => exists_step_of_running,
    fun s w c hs hw hdec hwait => by
      rw [step_of_peek hs hw, hdec, exec_inp_of_inputWaits hwait]⟩

/-! ## Faults are precise (R128) -/

/-- The run status moves to `Halted`, or to `Faulted` by taking a fatal condition, or not at all. -/
theorem Effect.status_cases {s t : State} (h : Effect s t) :
    t.status = s.status ∨ t.status = .halted ∨ ∃ c, t = s.raise c := by
  cases h with
  | halted => exact .inr (.inl rfl)
  | raised c => exact .inr (.inr ⟨c, rfl⟩)
  | _ => exact .inl rfl

/-- Settles O15: from a `Running` state, taking a fatal condition is the only way to `Faulted`. -/
theorem faultsArePrecise : Obligations.FaultsArePrecise := by
  intro s t c p h ht
  have hs : s.status = .running := (step_next h).1
  obtain hkept | hhalted | ⟨c', rfl⟩ := (effect_of_step h).status_cases
  · rw [ht, hs] at hkept
    cases hkept
  · rw [ht] at hhalted
    cases hhalted
  · cases ht
    exact ⟨raise_faultTaken s c, rfl⟩

/-! ## The pc after an instruction (R126, R131) -/

theorem exec_loadp_pc {b c : RegIdx} {s t : State} (h : exec (.loadp b c) s = .next t)
    (ht : t.status = .running) : t.pc = s.reg c := by
  obtain ⟨m, -, rfl⟩ := settle_running h ht
  rfl

/-- An instruction that leaves the run `Running` has advanced the pc, unless it is a LOADP or an IN that
waits. -/
theorem exec_pc_cases {i : Instr} {s t : State} (h : exec i s = .next t) (ht : t.status = .running) :
    t.pc = s.pc + 1 ∨ (∃ b c, i = .loadp b c) ∨ ∃ c, i = .inp c ∧ s.InputWaits := by
  cases i with
  | cmov a b c =>
    simp only [exec, execCmov] at h
    split_ifs at h <;> cases h <;> exact .inl rfl
  | sload a b c => obtain ⟨v, -, rfl⟩ := settle_running h ht; exact .inl rfl
  | sstore a b c => obtain ⟨m, -, rfl⟩ := settle_running h ht; exact .inl rfl
  | add a b c => cases h; exact .inl rfl
  | mul a b c => cases h; exact .inl rfl
  | div a b c =>
    simp only [exec, execDiv] at h
    split_ifs at h <;> cases h
    · cases ht
    · exact .inl rfl
  | nand a b c => cases h; exact .inl rfl
  | halt => cases h; cases ht
  | map b c => obtain ⟨r, -, rfl⟩ := settle_running h ht; exact .inl rfl
  | unmap c => obtain ⟨m, -, rfl⟩ := settle_running h ht; exact .inl rfl
  | out c =>
    simp only [exec, execOut] at h
    split_ifs at h <;> cases h
    · cases ht
    · exact .inl rfl
  | inp c =>
    simp only [exec, execIn] at h
    obtain ⟨b, rest, -, htake⟩ | ⟨-, -, htake⟩ | ⟨hpending, hended, -⟩ := take_cases s.input
    · rw [htake] at h; cases h; exact .inl rfl
    · rw [htake] at h; cases h; exact .inl rfl
    · exact .inr (.inr ⟨c, rfl, hpending, hended⟩)
  | loadp b c => exact .inr (.inl ⟨b, c, rfl⟩)
  | loadv r v => cases h; exact .inl rfl
  | invalid14 w => cases h; cases ht
  | invalid15 w => cases h; cases ht

/-- Settles O14: the two exceptions to the advance are the ones its hypotheses set aside. -/
theorem netEffectOnPc : Obligations.NetEffectOnPc := by
  refine ⟨fun i s t h ht hloadp hwait => ?_, fun b c s t h ht => exec_loadp_pc h ht⟩
  obtain hpc | ⟨b, c, rfl⟩ | ⟨c, rfl, hw⟩ := exec_pc_cases h ht
  · exact hpc
  · exact absurd rfl (hloadp b c)
  · exact absurd hw (hwait c rfl)

/-- Settles O17: a pc below the length of segment 0 is below the greatest length, 2^32 - 1 (R29). -/
theorem pcIncrementNeverWraps : Obligations.PcIncrementNeverWraps := by
  intro s hs hpc
  obtain ⟨g, hg, hlt⟩ := find_of_lt_lenOf hpc
  have hlen : g.len < 2 ^ 32 := hs.memory.find_len_lt hg
  exact BitVec.toNat_add_of_lt (show s.pc.toNat + 1 < 2 ^ 32 by omega)

end Sys2Proof.Machine
end

section
/-!
PROOFS. The rules of 41_alu.md: the number or the bits of each ALU result, and CMOV, ADD, MUL, DIV, NAND and
LOADV with their encodings, the advance of the pc and what they leave unchanged.
-/

namespace Sys2Proof.Machine

/-! ## What the operations compute (R141 to R146) -/

theorem aluAdd_toNat (b c : Word) : (aluAdd b c).toNat = (b.toNat + c.toNat) % 2 ^ 32 :=
  BitVec.toNat_ofNat ..

theorem aluMul_toNat (b c : Word) : (aluMul b c).toNat = (b.toNat * c.toNat) % 2 ^ 32 :=
  BitVec.toNat_ofNat ..

/-- The quotient is at most the dividend, so it fits a Word. -/
theorem aluDiv_toNat (b c : Word) : (aluDiv b c).toNat = b.toNat / c.toNat :=
  (BitVec.toNat_ofNat ..).trans (Nat.mod_eq_of_lt ((Nat.div_le_self _ _).trans_lt b.isLt))

theorem aluNand_getLsbD (b c : Word) {k : Nat} (hk : k < 32) :
    (aluNand b c).getLsbD k = !(b.getLsbD k && c.getLsbD k) := by
  simp [aluNand, hk]

theorem immWord_toNat (v : Imm25) : (immWord v).toNat = v.toNat :=
  BitVec.toNat_setWidth_of_le (by decide)

theorem immWord_getLsbD_of_ge (v : Imm25) {k : Nat} (hk : 25 ≤ k) : (immWord v).getLsbD k = false := by
  simp [immWord, BitVec.getLsbD_of_ge v k hk]

/-! ## Writing a register and moving on leaves the rest unchanged -/

theorem retireReg_onlyRegister (s : State) (r : RegIdx) (v : Word) : OnlyRegister r s (s.retireReg r v) where
  others _ hq := reg_retireReg_ne s r v hq
  memory := ⟨fun _ _ => rfl, rfl⟩
  outside := ⟨rfl, rfl, rfl, rfl⟩

theorem advance_onlyRegister (s : State) (r : RegIdx) : OnlyRegister r s s.advance where
  others _ _ := rfl
  memory := ⟨fun _ _ => rfl, rfl⟩
  outside := ⟨rfl, rfl, rfl, rfl⟩

/-! ## The two instructions with a test -/

theorem isNonzero_iff {w : Word} : isNonzero w = true ↔ w ≠ 0 := bne_iff_ne

theorem isZeroDivisor_iff {w : Word} : isZeroDivisor w = true ↔ w = 0 := beq_iff_eq

theorem exec_cmov_of_zero {a b c : RegIdx} {s : State} (hc : s.reg c = 0) :
    exec (.cmov a b c) s = .next s.advance :=
  if_neg fun h => isNonzero_iff.mp h hc

theorem exec_cmov_of_nonzero {a b c : RegIdx} {s : State} (hc : s.reg c ≠ 0) :
    exec (.cmov a b c) s = .next (s.retireReg a (s.reg b)) :=
  if_pos (isNonzero_iff.mpr hc)

theorem exec_div_of_zero {a b c : RegIdx} {s : State} (hc : s.reg c = 0) :
    exec (.div a b c) s = .next (s.raise (.divideByZero (s.reg b))) :=
  if_pos (isZeroDivisor_iff.mpr hc)

theorem exec_div_of_nonzero {a b c : RegIdx} {s : State} (hc : s.reg c ≠ 0) :
    exec (.div a b c) s = .next (s.retireReg a (aluDiv (s.reg b) (s.reg c))) :=
  if_neg fun h => hc (isZeroDivisor_iff.mp h)

/-- A zero divisor is fatal whatever the dividend is (R143, R245). -/
theorem exec_div_faultTaken {a b c : RegIdx} {s : State} (hc : s.reg c = 0) :
    ∃ t, exec (.div a b c) s = .next t ∧ FaultTaken (.divideByZero (s.reg b)) s t :=
  ⟨_, exec_div_of_zero hc, raise_faultTaken s _⟩

/-- The opcode of CMOV is 0, so its Word has no opcode term (R98). -/
theorem encode_cmov_toNat (a b c : RegIdx) :
    (encode (.cmov a b c)).toNat = a.toNat * 64 + b.toNat * 8 + c.toNat := by
  have h := standardWord_toNat (op := 0) (by decide) a b c
  rwa [zero_mul, zero_add] at h

/-! ## The obligations (R140 to R145, R148) -/

/-- Settles O22: a divisor that is not 0 is divided by, a divisor of 0 is raised. -/
theorem divIsUnsignedFloor : Obligations.DivIsUnsignedFloor := by
  intro a b c s
  refine ⟨standardWord_toNat (by decide) a b c, fun hc => ?_, exec_div_faultTaken⟩
  refine ⟨_, exec_div_of_nonzero hc, ?_, rfl, retireReg_onlyRegister s a _⟩
  rw [reg_retireReg_self, aluDiv_toNat]

/-- Settles O23: the floor quotient is the one number between the two bounds. -/
theorem divQuotientIsUnique : Obligations.DivQuotientIsUnique := by
  refine ⟨fun a b c s hc => ⟨_, exec_div_of_nonzero hc, ?_⟩, fun a b c s => exec_div_faultTaken⟩
  have hpos : 0 < (s.reg c).toNat := Nat.pos_of_ne_zero (fun h => hc (BitVec.eq_of_toNat_eq h))
  rw [reg_retireReg_self, aluDiv_toNat]
  refine ⟨Nat.div_le_self _ _, fun q => ?_⟩
  rw [← Nat.le_div_iff_mul_le hpos, ← Nat.div_lt_iff_lt_mul hpos]
  omega

/-- Settles O19: the two cases of the test on `x[C]`. -/
theorem cmovMovesWhenNonzero : Obligations.CmovMovesWhenNonzero := by
  intro a b c s
  refine ⟨encode_cmov_toNat a b c, ?_⟩
  by_cases hc : s.reg c = 0
  · exact ⟨_, exec_cmov_of_zero hc, (if_pos hc).symm, rfl, advance_onlyRegister s a⟩
  · refine ⟨_, exec_cmov_of_nonzero hc, ?_, rfl, retireReg_onlyRegister s a _⟩
    rw [reg_retireReg_self, if_neg hc]

/-- Settles O20: the sum is cut to 32 bits. -/
theorem addWrapsModulo : Obligations.AddWrapsModulo := by
  intro a b c s
  refine ⟨standardWord_toNat (by decide) a b c, _, rfl, ?_, rfl, retireReg_onlyRegister s a _⟩
  rw [reg_retireReg_self, aluAdd_toNat]

/-- Settles O21: the product is cut to 32 bits. -/
theorem mulKeepsLowHalf : Obligations.MulKeepsLowHalf := by
  intro a b c s
  refine ⟨standardWord_toNat (by decide) a b c, _, rfl, ?_, rfl, retireReg_onlyRegister s a _⟩
  rw [reg_retireReg_self, aluMul_toNat]

/-- Settles O24: every bit of the result from the bits of the inputs at its place. -/
theorem nandIsBitwise : Obligations.NandIsBitwise := by
  intro a b c s
  refine ⟨standardWord_toNat (by decide) a b c, _, rfl, fun k hk => ?_, rfl, retireReg_onlyRegister s a _⟩
  rw [reg_retireReg_self, aluNand_getLsbD _ _ hk]

/-- Settles O25: the immediate keeps its number when it is widened, and the bits above it are 0. -/
theorem loadvZeroExtends : Obligations.LoadvZeroExtends := by
  intro r v s
  refine ⟨encode_loadv_toNat r v, _, rfl, ?_, fun k hk => ?_, rfl, retireReg_onlyRegister s r _⟩
  · rw [reg_retireReg_self, immWord_toNat]
  · rw [reg_retireReg_self, immWord_getLsbD_of_ge v hk]

end Sys2Proof.Machine
end

section
/-!
PROOFS. The rules of 42_segment.md: when SLOAD, SSTORE, MAP and UNMAP complete and with what next state,
their encodings, what they leave unchanged, and their fatal conditions.
-/

namespace Sys2Proof.Machine

/-! ## SLOAD and SSTORE: the bound of a live segment, and what a store leaves unchanged (R53, R54) -/

/-- An offset at or beyond the length of a live segment, in the form in which `load_error` and
`store_error` ask for it. -/
theorem find_of_live_of_lenOf_le {m : Memory} {i : Word} {n : Nat} (hlive : m.live i = true)
    (h : m.lenOf i ≤ n) : ∃ g, m.find i = some g ∧ g.len ≤ n := by
  obtain ⟨g, hg⟩ := Option.isSome_iff_exists.mp hlive
  exact ⟨g, hg, lenOf_of_find hg ▸ h⟩

/-- A store never makes a segment live or dead. -/
theorem store_live {m m' : Memory} {i o v : Word} (h : m.store i o v = .ok m') (j : Word) :
    m'.live j = m.live j := by
  obtain ⟨g, hg, -, -⟩ := store_ok.mp h
  simp only [Memory.live, find_store hg h]
  split_ifs with hj
  · rw [hj, hg]; rfl
  · rfl

/-- A store never changes the length of a segment. -/
theorem store_lenOf {m m' : Memory} {i o v : Word} (h : m.store i o v = .ok m') (j : Word) :
    m'.lenOf j = m.lenOf j := by
  obtain ⟨g, hg, -, -⟩ := store_ok.mp h
  have hj := find_store hg h j
  split_ifs at hj with hji
  · rw [lenOf_of_find hj, hji, lenOf_of_find hg, write_len]
  · simp only [Memory.lenOf, hj]

theorem store_free {m m' : Memory} {i o v : Word} (h : m.store i o v = .ok m') :
    m'.free = m.free := by
  obtain ⟨-, -, -, rfl⟩ := store_ok.mp h
  rfl

/-- SLOAD of a Word that exists completes with that Word. -/
theorem exec_sload_of_lt {s : State} {a b c : RegIdx} (h : (s.reg c).toNat < s.mem.lenOf (s.reg b)) :
    ∃ v, s.mem.peek (s.reg b) (s.reg c) = some v ∧ exec (.sload a b c) s = .next (s.retireReg a v) := by
  obtain ⟨g, hg, ho⟩ := find_of_lt_lenOf h
  have hv := peek_eq_some.mpr ⟨g, hg, ho, rfl⟩
  exact ⟨_, hv, settle_ok (load_ok.mpr hv)⟩

/-- Settles O26: the load answers the Word, or fails on liveness, or on the bound. -/
theorem sloadReadsWord : Obligations.SloadReadsWord := by
  intro a b c s
  refine ⟨standardWord_toNat (by decide) a b c, fun _ hlt => ?reads, fun hdead => ?dead,
    fun hlive hle => ?beyond⟩
  case reads =>
    obtain ⟨v, hv, hexec⟩ := exec_sload_of_lt (a := a) hlt
    exact ⟨_, hexec, by rw [hv, reg_retireReg_self], rfl, retireReg_onlyRegister s a v⟩
  case dead => exact settle_faultTaken (load_error.mpr (.inl ⟨live_eq_false_iff.mp hdead, rfl⟩)) _
  case beyond =>
    obtain ⟨g, hg, hlen⟩ := find_of_live_of_lenOf_le hlive hle
    exact settle_faultTaken (load_error.mpr (.inr ⟨g, hg, hlen, rfl⟩)) _

/-- Settles O27: the store replaces one Word of a live segment, or fails on liveness, or on the bound. -/
theorem sstoreWritesWord : Obligations.SstoreWritesWord := by
  intro a b c s
  refine ⟨standardWord_toNat (by decide) a b c, fun _ hlt => ?writes, fun hdead => ?dead,
    fun hlive hle => ?beyond⟩
  case writes =>
    obtain ⟨m, hm, hexec⟩ := exec_sstore_of_lt (c := c) hlt
    refine ⟨_, hexec, (peek_store hm _ _).trans (if_pos ⟨rfl, rfl⟩), fun i o hne => ?_,
      fun i => ⟨store_live hm i, store_lenOf hm i⟩, store_free hm, store_nextId hm,
      fun _ => rfl, ⟨rfl, rfl, rfl, rfl⟩, rfl⟩
    have hother : ¬ (i = s.reg a ∧ o = s.reg b) := fun h => hne (Prod.ext h.1 h.2)
    exact (peek_store hm i o).trans (if_neg hother)
  case dead => exact settle_faultTaken (store_error.mpr (.inl ⟨live_eq_false_iff.mp hdead, rfl⟩)) _
  case beyond =>
    obtain ⟨g, hg, hlen⟩ := find_of_live_of_lenOf_le hlive hle
    exact settle_faultTaken (store_error.mpr (.inr ⟨g, hg, hlen, rfl⟩)) _

/-! ## MAP completes with the identifier chosen (R51, R162) -/

/-- From `s` to `t`, MAP issued identifier `i` in register `b` for a zero-filled segment of `x[c]` Words
and left the counter at `next`; nothing else changed but the pc. -/
structure MapIssued (b c : RegIdx) (i next : Nat) (s t : State) : Prop where
  id : (t.reg b).toNat = i
  zero : ZeroSegment t.mem (t.reg b) (s.reg c).toNat
  others : OtherSegmentsKept (t.reg b) s t
  free : t.mem.free = s.mem.free.filter fun k => k ≠ i
  nextId : t.mem.nextId = next
  registers : ∀ q, q ≠ b → t.reg q = s.reg q
  outside : OutsideKept s t
  pc : t.pc = s.pc + 1

/-- An identifier issued fits a Word, so MAP returns it whole. -/
theorem State.Inv.toNat_chooseId {s : State} (hs : s.Inv) {i next : Nat}
    (hi : s.mem.chooseId s.cfg = some (i, next)) : (BitVec.ofNat 32 i : Word).toNat = i := by
  obtain ⟨-, hmax, -⟩ := hs.params
  obtain ⟨-, hlt, -⟩ := hs.memory.chooseId_fresh hi
  exact (BitVec.toNat_ofNat ..).trans (Nat.mod_eq_of_lt (hlt.trans_le hmax))

/-- MAP with an identifier to issue and room for the segment completes. -/
theorem exec_map_of_chooseId {b c : RegIdx} {s : State} (hs : s.Inv) {i next : Nat}
    (hi : s.mem.chooseId s.cfg = some (i, next))
    (hcap : ¬ ExceedsWords s.cfg (s.mem.wordsInUse + (s.reg c).toNat)) :
    ∃ t, exec (.map b c) s = .next t ∧ MapIssued b c i next s t := by
  rw [exceedsWords_iff, Bool.not_eq_true] at hcap
  have hr := map_ok.mpr ⟨i, next, hi, hcap, rfl⟩
  obtain ⟨-, -, hfind⟩ := hs.find_map hr
  refine ⟨_, settle_ok hr, ?_⟩
  exact
    { id := by rw [reg_retireReg_self, hs.toNat_chooseId hi]
      zero := by
        rw [reg_retireReg_self]
        exact zeroSegment_of_find ((hfind _).trans (if_pos rfl))
      others := by
        rw [reg_retireReg_self]
        exact otherSegmentsKept_of_find fun j hj => (hfind j).trans (if_neg hj)
      free := rfl
      nextId := rfl
      registers := fun q hq => reg_retireReg_ne _ b _ hq
      outside := ⟨rfl, rfl, rfl, rfl⟩
      pc := rfl }

/-- Settles O28: with no identifier free, the one chosen is the counter's value. -/
theorem mapIssuesFreshIdentifier : Obligations.MapIssuesFreshIdentifier := by
  intro b c s hs hfree hmax hcap
  have hi := chooseId_some.mpr (.inr ⟨hfree, hmax, rfl, rfl⟩)
  obtain ⟨t, hexec, ht⟩ := exec_map_of_chooseId (b := b) hs hi hcap
  have hnil : t.mem.free = [] := by rw [ht.free, hfree, List.filter_nil]
  exact ⟨t, hexec, ht.id, ht.zero, ht.others, hnil, ht.nextId, ht.registers, ht.outside, ht.pc⟩

/-- Settles O29: with an identifier free, the one chosen is picked from the free list, on which it stands
once (R33.5). -/
theorem mapReusesFreeIdentifier : Obligations.MapReusesFreeIdentifier := by
  intro b c s hs hfree hcap
  obtain ⟨i, hpick⟩ := Option.ne_none_iff_exists'.mp (mt (pickFree_none (p := s.cfg.freePick)).mp hfree)
  have hi := chooseId_some.mpr (.inl ⟨hpick, rfl⟩)
  obtain ⟨t, hexec, ht⟩ := exec_map_of_chooseId (b := b) hs hi hcap
  have hlast (hp : s.cfg.freePick = .lifo) : s.mem.free.getLast? = some i := by
    rwa [hp] at hpick
  have herase : t.mem.free = s.mem.free.erase i := by
    rw [ht.free, hs.memory.freeDistinct.erase_eq_filter]
    exact List.filter_congr fun k _ => Bool.eq_iff_iff.mpr (by simp)
  refine ⟨t, hexec, ?_⟩
  rw [ht.id]
  exact ⟨pickFree_mem hpick, hlast, ht.zero, ht.others, herase, ht.nextId, ht.registers, ht.outside, ht.pc⟩

/-! ## UNMAP (R52, R163) -/

theorem unmap_free {m m' : Memory} {i : Word} (h : m.unmap i = .ok m') :
    m'.free = m.free ++ [i.toNat] := by
  obtain ⟨-, -, rfl⟩ := unmap_ok.mp h
  rfl

/-- UNMAP of a live identifier that is not 0 completes. -/
theorem exec_unmap_of_live {c : RegIdx} {s : State} (h0 : s.reg c ≠ 0)
    (hlive : s.mem.live (s.reg c) = true) :
    ∃ m, s.mem.unmap (s.reg c) = .ok m ∧ exec (.unmap c) s = .next (s.setMem m).advance := by
  have hm := unmap_ok.mpr ⟨h0, hlive, rfl⟩
  exact ⟨_, hm, settle_ok hm⟩

/-- Settles O31: UNMAP releases the segment, or fails on identifier 0, or on liveness. -/
theorem unmapReleasesSegment : Obligations.UnmapReleasesSegment := by
  intro c s
  refine ⟨standardWord_toNat (by decide) 0 0 c, fun h0 hlive => ?releases, fun h0 => ?zero,
    fun h0 hdead => ?dead⟩
  case releases =>
    obtain ⟨m, hm, hexec⟩ := exec_unmap_of_live h0 hlive
    have hnone : m.find (s.reg c) = none := (find_unmap hm _).trans (if_pos rfl)
    exact ⟨_, hexec, live_eq_false_iff.mpr hnone, unmap_free hm, unmap_nextId hm,
      exec_unmap_otherSegmentsKept hexec, fun _ => rfl, ⟨rfl, rfl, rfl, rfl⟩, rfl⟩
  case zero => exact settle_faultTaken (unmap_error.mpr (.inl ⟨h0, rfl⟩)) _
  case dead => exact settle_faultTaken (unmap_error.mpr (.inr ⟨h0, hdead, rfl⟩)) _

end Sys2Proof.Machine
end

section
/-!
PROOFS. The rules of 43_control.md: HALT, the cases of LOADP with the rest of memory across it, and the branch
made of a CMOV and a LOADP.
-/

namespace Sys2Proof.Machine

/-! ## HALT (R180) -/

/-- Settles O34: HALT changes the pc and the run status only, and a `Halted` state has no step. -/
theorem haltEndsTheRun : Obligations.HaltEndsTheRun :=
  ⟨standardWord_toNat (by decide) 0 0 0, fun _ =>
    ⟨_, rfl, rfl, rfl, fun _ => rfl, ⟨fun _ _ => rfl, rfl⟩, rfl, rfl, rfl, step_halted rfl⟩⟩

/-! ## LOADP (R55, R181) -/

/-- LOADP changes no segment but segment 0. -/
theorem find_replaceZero_of_ne_zero {cfg : Params} {m m' : Memory} {i j : Word} (hj : j ≠ 0)
    (h : m.replaceZero cfg i = .ok m') : m'.find j = m.find j := by
  obtain ⟨-, rfl⟩ | ⟨-, g, -, -, rfl⟩ := replaceZero_ok.mp h
  · rfl
  · have hne : ¬ j.toNat = 0 := fun h0 => hj (BitVec.eq_of_toNat_eq h0)
    exact (tableGet_put _ _ _ _).trans (if_neg hne)

theorem replaceZero_free {cfg : Params} {m m' : Memory} {i : Word}
    (h : m.replaceZero cfg i = .ok m') : m'.free = m.free := by
  obtain ⟨-, rfl⟩ | ⟨-, -, -, -, rfl⟩ := replaceZero_ok.mp h <;> rfl

/-- LOADP of segment 0 is a plain jump: nothing is copied and nothing checked (R55, R181). -/
theorem exec_loadp_of_zero {b c : RegIdx} {s : State} (hb : s.reg b = 0) :
    exec (.loadp b c) s = .next (s.setPc (s.reg c)) :=
  settle_ok (replaceZero_ok.mpr (.inl ⟨hb, rfl⟩))

/-- Settles O35: the cases of the test on `x[B]`, of its liveness and of the capacity; the target is left to the
PC check of the next step (R183). -/
theorem loadpLoadsProgram : Obligations.LoadpLoadsProgram := by
  intro b c s
  refine ⟨standardWord_toNat (by decide) 0 b c, fun hb => ?jumps, fun hb hlive hcap => ?loads,
    fun hb hdead => ?dead, fun hb hlive hcap => ?exhausted, fun t h ht htarget => ?target⟩
  case jumps =>
    exact ⟨_, exec_loadp_of_zero hb, rfl, ⟨fun _ _ => rfl, rfl⟩, fun _ => rfl, ⟨rfl, rfl, rfl, rfl⟩⟩
  case loads =>
    obtain ⟨g, hg⟩ := Option.isSome_iff_exists.mp hlive
    obtain ⟨m, hm, hexec⟩ := exec_loadp_of_find (c := c) hb hg hcap
    have hcopy : m.find 0 = s.mem.find (s.reg b) := find_zero_replaceZero hb hm
    have hzero : m.find 0 = some g := hcopy.trans hg
    have hlen : m.lenOf 0 = s.mem.lenOf (s.reg b) := by rw [lenOf_of_find hzero, lenOf_of_find hg]
    exact ⟨_, hexec, rfl, Option.isSome_of_eq_some hzero, hlen, peek_of_find_eq hcopy,
      otherSegmentsKept_of_find fun j hj => find_replaceZero_of_ne_zero hj hm, replaceZero_free hm,
      replaceZero_nextId hm, fun _ => rfl, ⟨rfl, rfl, rfl, rfl⟩⟩
  case dead => exact settle_faultTaken (replaceZero_error.mpr ⟨hb, .inl ⟨live_eq_false_iff.mp hdead, rfl⟩⟩) _
  case exhausted =>
    obtain ⟨g, hg⟩ := Option.isSome_iff_exists.mp hlive
    rw [exceedsWords_iff, lenOf_of_find hg] at hcap
    rw [lenOf_of_find hg]
    exact settle_faultTaken (replaceZero_error.mpr ⟨hb, .inr ⟨g, hg, hcap, rfl⟩⟩) _
  case target =>
    have hpc : t.pc = s.reg c := exec_loadp_pc h ht
    rw [← hpc] at htarget ⊢
    exact pcBoundIsChecked t ht htarget

/-! ## The branch idiom (R184) -/

/-- Settles O36: CMOV leaves the target in `x[T]` and the zero in `x[Z]`, and LOADP jumps to it. -/
theorem branchIdiom : Obligations.BranchIdiom := by
  intro s w v rT rL rX rZ hrun hw hdecw hv hdecv hzero hne
  obtain ⟨-, t, hcmov, htarget, hpc, hkept⟩ := cmovMovesWhenNonzero rT rL rX s
  have hstep : step s = .next t := by rw [step_of_peek hrun hw, hdecw, hcmov]
  have htrun : t.status = .running := hkept.outside.status.trans hrun
  have hnext : t.mem.peek 0 t.pc = some v := by rw [hpc, hkept.memory.whole, hv]
  have htzero : t.reg rZ = 0 := (hkept.others rZ hne.symm).trans hzero
  have hjump : step t = .next (t.setPc (t.reg rT)) := by
    rw [step_of_peek htrun hnext, hdecv, exec_loadp_of_zero htzero]
  exact ⟨t, _, hstep, hjump, htrun, ⟨hkept.memory.words, hkept.memory.whole⟩, htarget⟩

end Sys2Proof.Machine
end

section
/-!
PROOFS. The rules of 44_io.md: OUT and the range it checks, IN on each answer of the input stream, the
end-of-stream that stays, and the instructions that change nothing observed from outside.
-/

namespace Sys2Proof.Machine

/-! ## A byte in a Word (R191, R194) -/

/-- A value that fits a byte is emitted whole. -/
theorem lowByte_toNat {v : Word} (h : v.toNat ≤ 255) : (lowByte v).toNat = v.toNat :=
  (BitVec.toNat_setWidth ..).trans (Nat.mod_eq_of_lt (by omega))

theorem byteWord_toNat (b : Byte) : (byteWord b).toNat = b.toNat :=
  BitVec.toNat_setWidth_of_le (by decide)

theorem isAboveByte_iff {v : Word} : isAboveByte v = true ↔ 255 < v.toNat := decide_eq_true_iff

/-! ## OUT (R191) -/

theorem exec_out_of_le {c : RegIdx} {s : State} (h : (s.reg c).toNat ≤ 255) :
    exec (.out c) s = .next (s.emit (lowByte (s.reg c))).advance :=
  if_neg fun habove => h.not_gt (isAboveByte_iff.mp habove)

theorem exec_out_of_gt {c : RegIdx} {s : State} (h : 255 < (s.reg c).toNat) :
    exec (.out c) s = .next (s.raise (.outputOutOfRange (s.reg c))) :=
  if_pos (isAboveByte_iff.mpr h)

/-- Settles O37: the two sides of the range check. -/
theorem outEmitsByte : Obligations.OutEmitsByte := by
  intro c s
  refine ⟨standardWord_toNat (by decide) 0 0 c, fun hle => ?emits, fun hgt => ?outside⟩
  case emits =>
    exact ⟨_, exec_out_of_le hle, ⟨_, lowByte_toNat hle, rfl⟩, fun _ => rfl, ⟨fun _ _ => rfl, rfl⟩,
      rfl, rfl, rfl, rfl⟩
  case outside => exact ⟨_, exec_out_of_gt hgt, raise_faultTaken s _⟩

/-! ## IN (R194) -/

/-- With a byte waiting, IN takes it. -/
theorem exec_inp_of_cons {s : State} {x : Byte} {rest : List Byte} (h : s.input.pending = x :: rest)
    (c : RegIdx) : exec (.inp c) s =
      .next ((s.setInput { s.input with pending := rest, consumed := s.input.consumed + 1 }).retireReg c
        (byteWord x)) := by
  simp only [exec, execIn, InStream.take, h]

/-- At end-of-stream IN completes without a byte. -/
theorem exec_inp_of_atEndOfStream {s : State} (h : s.AtEndOfStream) (c : RegIdx) :
    exec (.inp c) s = .next (s.retireReg c endOfStreamWord) := by
  obtain ⟨hpending, hended⟩ := h
  simp only [exec, execIn, InStream.take, hpending, hended, if_true]

/-- The end-of-stream value is the greatest Word (R6). -/
theorem reg_retireReg_endOfStream (s : State) (c : RegIdx) :
    ((s.retireReg c endOfStreamWord).reg c).toNat = 2 ^ 32 - 1 := by
  rw [reg_retireReg_self]
  rfl

/-- Settles O38: the two answers of the stream that let IN complete. -/
theorem inReadsByteOrEndOfStream : Obligations.InReadsByteOrEndOfStream := by
  intro c s
  refine ⟨standardWord_toNat (by decide) 0 0 c, fun x rest hcons => ?byte,
    fun hpending hended => ?endOfStream⟩
  case byte =>
    refine ⟨_, exec_inp_of_cons hcons c, ?_, rfl, rfl, rfl, fun q hq => reg_retireReg_ne _ c _ hq,
      ⟨fun _ _ => rfl, rfl⟩, rfl, rfl, rfl, rfl⟩
    rw [reg_retireReg_self, byteWord_toNat]
  case endOfStream =>
    exact ⟨_, exec_inp_of_atEndOfStream ⟨hpending, hended⟩ c, reg_retireReg_endOfStream s c,
      retireReg_onlyRegister s c _, rfl⟩

/-! ## The environment and the input stream (R193, R195) -/

theorem deliver_of_ended {s : State} (h : s.input.ended = true) (x : Byte) : s.deliver x = s :=
  if_pos h

theorem deliver_of_not_ended {s : State} (h : s.input.ended = false) (x : Byte) :
    s.deliver x = s.setInput { s.input with pending := s.input.pending ++ [x] } :=
  if_neg (ne_true_of_eq_false h)

theorem endInput_atEndOfStream {s : State} (h : s.input.pending = []) : s.endInput.AtEndOfStream :=
  ⟨h, rfl⟩

/-- A step changes the input stream by taking its next byte only (R194). -/
theorem Effect.input_cases {s t : State} (h : Effect s t) :
    t.input = s.input ∨ ∃ x rest, s.input.pending = x :: rest ∧
      t.input = { s.input with pending := rest, consumed := s.input.consumed + 1 } := by
  cases h with
  | received c x rest h => exact .inr ⟨x, rest, h, rfl⟩
  | _ => exact .inl rfl

/-- At end-of-stream there is no byte to take. -/
theorem Effect.keeps_atEndOfStream {s t : State} (h : Effect s t) (hs : s.AtEndOfStream) :
    t.AtEndOfStream := by
  obtain hkept | ⟨x, rest, hcons, -⟩ := h.input_cases
  · rwa [State.AtEndOfStream, hkept]
  · cases hs.1.symm.trans hcons

/-- Settles O39: the machine cannot leave end-of-stream by an effect, nor the environment by what it offers. -/
theorem endOfStreamStays : Obligations.EndOfStreamStays := by
  refine ⟨fun s t hs h => (effect_of_step h).keeps_atEndOfStream hs, fun s x hs => ⟨?_, ?_⟩,
    fun c s hs => ?_⟩
  · rwa [deliver_of_ended hs.2]
  · exact endInput_atEndOfStream hs.1
  · have hexec := exec_inp_of_atEndOfStream hs c
    exact ⟨_, hexec, reg_retireReg_endOfStream s c, (effect_of_exec hexec).keeps_atEndOfStream hs⟩

/-- Settles O40: what the environment does to an empty, open stream decides which way the same IN completes. -/
theorem inWaitsForTheEnvironment : Obligations.InWaitsForTheEnvironment := by
  intro c s hwait
  obtain ⟨hpending, hended⟩ := hwait
  refine ⟨exec_inp_of_inputWaits ⟨hpending, hended⟩ c, fun x => ?delivered, ?ended⟩
  case delivered =>
    have hone : s.input.pending ++ [x] = [x] := by rw [hpending, List.nil_append]
    rw [deliver_of_not_ended hended]
    refine ⟨_, exec_inp_of_cons hone c, ?_, rfl, rfl⟩
    rw [reg_retireReg_self, byteWord_toNat]
  case ended =>
    exact ⟨_, exec_inp_of_atEndOfStream (endInput_atEndOfStream hpending) c,
      reg_retireReg_endOfStream s.endInput c, rfl⟩

/-! ## What is observed from outside (R197) -/

theorem observed_of_outsideKept {s t : State} (h : OutsideKept s t) : t.observed = s.observed := by
  rw [State.observed, State.observed, h.out, h.status, h.input]

/-- An instruction whose success keeps everything outside either does so or takes a fatal condition. -/
theorem settle_outsideKept {α : Type} {s t : State} {r : Except Cause α} {k : α → State}
    (h : settle s r k = .next t) (hk : ∀ x, OutsideKept s (k x)) :
    OutsideKept s t ∨ ∃ c, t = s.raise c := by
  obtain ⟨x, -, rfl⟩ | ⟨c, -, rfl⟩ := settle_next.mp h
  · exact .inl (hk x)
  · exact .inr ⟨c, rfl⟩

/-- Without a fatal condition only OUT, IN and HALT reach outside (R196, R197). -/
theorem exec_outside_cases {i : Instr} {s t : State} (h : exec i s = .next t) :
    (OutsideKept s t ∨ ∃ c, t = s.raise c) ∨
      (∃ c, i = .out c) ∨ (∃ c, i = .inp c) ∨ i = .halt := by
  cases i with
  | cmov a b c =>
    simp only [exec, execCmov] at h
    split_ifs at h <;> cases h <;> exact .inl (.inl ⟨rfl, rfl, rfl, rfl⟩)
  | sload a b c => exact .inl (settle_outsideKept h fun _ => ⟨rfl, rfl, rfl, rfl⟩)
  | sstore a b c => exact .inl (settle_outsideKept h fun _ => ⟨rfl, rfl, rfl, rfl⟩)
  | add a b c => cases h; exact .inl (.inl ⟨rfl, rfl, rfl, rfl⟩)
  | mul a b c => cases h; exact .inl (.inl ⟨rfl, rfl, rfl, rfl⟩)
  | div a b c =>
    simp only [exec, execDiv] at h
    split_ifs at h <;> cases h
    · exact .inl (.inr ⟨_, rfl⟩)
    · exact .inl (.inl ⟨rfl, rfl, rfl, rfl⟩)
  | nand a b c => cases h; exact .inl (.inl ⟨rfl, rfl, rfl, rfl⟩)
  | halt => exact .inr (.inr (.inr rfl))
  | map b c => exact .inl (settle_outsideKept h fun _ => ⟨rfl, rfl, rfl, rfl⟩)
  | unmap c => exact .inl (settle_outsideKept h fun _ => ⟨rfl, rfl, rfl, rfl⟩)
  | out c => exact .inr (.inl ⟨c, rfl⟩)
  | inp c => exact .inr (.inr (.inl ⟨c, rfl⟩))
  | loadp b c => exact .inl (settle_outsideKept h fun _ => ⟨rfl, rfl, rfl, rfl⟩)
  | loadv r v => cases h; exact .inl (.inl ⟨rfl, rfl, rfl, rfl⟩)
  | invalid14 w => cases h; exact .inl (.inr ⟨_, rfl⟩)
  | invalid15 w => cases h; exact .inl (.inr ⟨_, rfl⟩)

theorem exec_out_status_cases {c : RegIdx} {s t : State} (h : exec (.out c) s = .next t) :
    t.status = s.status ∨ ∃ e, t = s.raise e := by
  obtain hle | hgt := le_or_gt (s.reg c).toNat 255
  · rw [exec_out_of_le hle] at h; cases h; exact .inl rfl
  · rw [exec_out_of_gt hgt] at h; cases h; exact .inr ⟨_, rfl⟩

theorem exec_inp_status {c : RegIdx} {s t : State} (h : exec (.inp c) s = .next t) :
    t.status = s.status := by
  obtain ⟨x, rest, hcons, -⟩ | ⟨hpending, hended, -⟩ | ⟨hpending, hended, -⟩ := take_cases s.input
  · rw [exec_inp_of_cons hcons] at h; cases h; rfl
  · rw [exec_inp_of_atEndOfStream ⟨hpending, hended⟩] at h; cases h; rfl
  · rw [exec_inp_of_inputWaits ⟨hpending, hended⟩] at h; cases h; rfl

/-- An instruction moves the run status by a fatal condition or by HALT only (R28). -/
theorem exec_status_cases {i : Instr} {s t : State} (h : exec i s = .next t) :
    (t.status = s.status ∨ ∃ c, t = s.raise c) ∨ i = .halt := by
  obtain hkept | ⟨c, rfl⟩ | ⟨c, rfl⟩ | rfl := exec_outside_cases h
  · exact .inl (hkept.imp_left OutsideKept.status)
  · exact .inl (exec_out_status_cases h)
  · exact .inl (.inl (exec_inp_status h))
  · exact .inr rfl

/-- Settles O42: past the three instructions and the fatal conditions everything outside is kept; and neither
a status kept from `Running` nor a fatal condition is `Halted`. -/
theorem onlyIoIsObserved : Obligations.OnlyIoIsObserved := by
  refine ⟨fun i s t _ h hout hinp hhalt hsafe => ?observed, fun i s t hrun h ht => ?halts⟩
  case observed =>
    obtain (hkept | ⟨c, rfl⟩) | ⟨c, hi⟩ | ⟨c, hi⟩ | hi := exec_outside_cases h
    · exact observed_of_outsideKept hkept
    · exact absurd rfl (hsafe c s.pc)
    · exact absurd hi (hout c)
    · exact absurd hi (hinp c)
    · exact absurd hi hhalt
  case halts =>
    obtain (hkept | ⟨c, rfl⟩) | hi := exec_status_cases h
    · rw [hkept, hrun] at ht
      cases ht
    · cases ht
    · exact hi

end Sys2Proof.Machine
end

section
/-!
PROOFS. The rules of 45_hw_blocks.md: the decoder block's outputs, the control unit's use of the register
file, the ALU and the indexer against `exec`, the composition of the blocks against `step`, and the status
outputs.
-/

namespace Sys2Proof.Machine

/-! ## The decoder block (R206, R207) -/

/-- With R94's constants no extractor is out of range: the outputs are the fields of the Word. -/
theorem decoderBlock_eq (w : Word) : decoderBlock w =
    { op := fieldOp w, a := fieldA w, b := fieldB w, c := fieldC w, reg := fieldReg w,
      value := fieldValue w, isLoadValue := fieldOp w == 13,
      invalid := fieldOp w == 14 || fieldOp w == 15 } := rfl

theorem decoderBlock_op_toNat (w : Word) : (decoderBlock w).op.toNat = w.toNat / 2 ^ 28 :=
  fieldOp_toNat w

theorem decoderBlock_isLoadValue_iff {w : Word} :
    (decoderBlock w).isLoadValue = true ↔ w.toNat / 2 ^ 28 = 13 := by
  rw [decoderBlock_eq, beq_iff_eq, ← BitVec.toNat_inj, fieldOp_toNat]
  rfl

theorem decoderBlock_invalid_iff {w : Word} :
    (decoderBlock w).invalid = true ↔ 14 ≤ w.toNat / 2 ^ 28 := by
  have hw := w.isLt
  have h14 : (14 : BitVec 4).toNat = 14 := rfl
  have h15 : (15 : BitVec 4).toNat = 15 := rfl
  simp only [decoderBlock_eq, Bool.or_eq_true, beq_iff_eq, ← BitVec.toNat_inj, fieldOp_toNat, h14, h15]
  omega

/-- Settles O55: the flags choose the layout the opcode chooses. -/
theorem decoderBlockGivesTheFields : Obligations.DecoderBlockGivesTheFields := by
  intro w
  obtain h | h | h : w.toNat / 2 ^ 28 ≤ 12 ∨ w.toNat / 2 ^ 28 = 13 ∨ 14 ≤ w.toNat / 2 ^ 28 := by omega
  · rw [decodeFields_standard h, DecoderOut.tagged, if_neg (by rw [decoderBlock_invalid_iff]; omega),
      if_neg (by rw [decoderBlock_isLoadValue_iff]; omega)]
    rfl
  · rw [decodeFields_loadValue h, DecoderOut.tagged, if_neg (by rw [decoderBlock_invalid_iff]; omega),
      if_pos (decoderBlock_isLoadValue_iff.mpr h)]
    rfl
  · rw [decodeFields_invalid h, DecoderOut.tagged, if_pos (decoderBlock_invalid_iff.mpr h)]

/-! ## The register file and the commit edge (R200, R203, R205, R210) -/

theorem regFileRead_eq (s : State) (r q : RegIdx) :
    regFileRead s.regs r q = { rd1 := s.reg r, rd2 := s.reg q } := rfl

/-- The state after an instruction's execution, by how it ends (R217). -/
def CycleEnd.after (s : State) : CycleEnd → State
  | .commit k => s.commitEdge k
  | .fatal c => s.raise c
  | .waiting => s

/-- With `we` and `load_pc` 0 the free ports carry nothing into the state (log 23). -/
theorem commitEdge_idle (s : State) (m : Memory) :
    s.commitEdge { idleCommit s with mem := m } = (s.setMem m).advance := by
  simp [State.commitEdge, idleCommit, regFileClock, pcClock, State.advance, State.setPc, State.setMem]

theorem commitEdge_write (s : State) (r : RegIdx) (v : Word) (m : Memory) (i : InStream) :
    s.commitEdge { idleCommit s with we := true, wa := r, wd := v, mem := m, input := i } =
      ((s.setMem m).setInput i).retireReg r v := by
  simp [State.commitEdge, idleCommit, regFileClock, pcClock, State.retireReg, State.setReg,
    State.advance, State.setPc, State.setMem, State.setInput]

theorem commitEdge_loadPc (s : State) (p : Word) (m : Memory) :
    s.commitEdge { idleCommit s with loadPc := true, newPc := p, mem := m } =
      (s.setMem m).setPc p := by
  simp [State.commitEdge, idleCommit, regFileClock, pcClock, State.setPc, State.setMem]

theorem commitEdge_outByte (s : State) (b : Byte) :
    s.commitEdge { idleCommit s with outByte := some b } = (s.emit b).advance := rfl

theorem commitEdge_halt (s : State) :
    s.commitEdge { idleCommit s with halt := true } = s.advance.setStatus .halted := by
  simp [State.commitEdge, idleCommit, regFileClock, pcClock, State.advance, State.setPc,
    State.setStatus]

theorem after_commitWrite (s : State) (r : RegIdx) (v : Word) :
    (commitWrite s true r v).after s = s.retireReg r v :=
  commitEdge_write s r v s.mem s.input

theorem after_commitWrite_disabled (s : State) (r : RegIdx) (v : Word) :
    (commitWrite s false r v).after s = s.advance := by
  simp [CycleEnd.after, commitWrite, State.commitEdge, idleCommit, regFileClock, pcClock, State.advance,
    State.setPc]

/-! ## The control unit on each kind of instruction (R205, R208, R212) -/

/-- The indexer's answer to a command, from the segment manager's result (R212): the tables after it and
`rdata`, or the fault. -/
def indexerReply {α : Type} (m : Memory) (r : Except Cause α) (f : α → Memory × Word) : IndexerOut :=
  match r with
  | .ok x => indexerAnswer (f x).1 (f x).2
  | .error c => indexerFault m c

section Commands
variable (cfg : Params) (m : Memory) (i o w : Word)

theorem indexerBlock_fetch : indexerBlock cfg m .fetch i o w =
    indexerReply m (m.load 0 o) fun v => (m, v) := by
  rw [indexerBlock]
  cases m.load 0 o <;> rfl

theorem indexerBlock_read : indexerBlock cfg m .read i o w =
    indexerReply m (m.load i o) fun v => (m, v) := by
  rw [indexerBlock]
  cases m.load i o <;> rfl

theorem indexerBlock_write : indexerBlock cfg m .write i o w =
    indexerReply m (m.store i o w) fun m' => (m', Config.undrivenData) := by
  rw [indexerBlock]
  cases m.store i o w <;> rfl

theorem indexerBlock_map : indexerBlock cfg m .map i o w =
    indexerReply m (m.map cfg w) fun r => (r.1, BitVec.ofNat 32 r.2) := by
  rw [indexerBlock]
  cases m.map cfg w <;> rfl

theorem indexerBlock_unmap : indexerBlock cfg m .unmap i o w =
    indexerReply m (m.unmap i) fun m' => (m', Config.undrivenData) := by
  rw [indexerBlock]
  cases m.unmap i <;> rfl

theorem indexerBlock_replace0 : indexerBlock cfg m .replace0 i o w =
    indexerReply m (m.replaceZero cfg i) fun m' => (m', Config.undrivenData) := by
  rw [indexerBlock]
  cases m.replaceZero cfg i <;> rfl

end Commands

/-- An instruction that goes through the segment manager: committing the indexer's answer, or reporting its
fault, is what `settle` does. `e` is what the control unit asserts, given the answer. -/
theorem settle_eq_commitIndexer {α : Type} {s : State} {r : Except Cause α} {k : α → State}
    {f : α → Memory × Word} {ans : IndexerOut} (hans : ans = indexerReply s.mem r f)
    (e : IndexerOut → Commit)
    (hok : ∀ x, s.commitEdge (e (indexerAnswer (f x).1 (f x).2)) = k x) :
    settle s r k = .next ((commitIndexer ans (e ans)).after s) := by
  subst hans
  cases r with
  | ok x => exact congrArg _ (hok x).symm
  | error c => rfl

/-- An ALU operation without a zero divisor commits its result (R208). -/
theorem after_commitAlu {s : State} {op : AluOp} {d : DecoderOut} {y : Word}
    (h : aluBlock op (s.reg d.b) (s.reg d.c) = { y := y, div0 := false }) :
    (commitAlu s op d).after s = s.retireReg d.a y := by
  rw [← after_commitWrite, commitAlu, regFileRead_eq, h]
  rfl

/-- DIV through the ALU: `div0` gives the fatal condition (R208). -/
theorem exec_div_eq_blocks (s : State) (d : DecoderOut) :
    exec (.div d.a d.b d.c) s = .next ((commitAlu s .div d).after s) := by
  by_cases hc : s.reg d.c = 0
  · rw [exec_div_of_zero hc, commitAlu, regFileRead_eq, aluBlock, isZeroDivisor_iff.mpr hc]
    rfl
  · rw [exec_div_of_nonzero hc, after_commitAlu]
    exact if_neg (isZeroDivisor_iff.not.mpr hc)

/-- CMOV gates the write enable with the test of `x[C]` (R209). -/
theorem exec_cmov_eq_blocks (s : State) (a b c : RegIdx) :
    exec (.cmov a b c) s =
      .next ((commitWrite s (isNonzero (s.reg c)) a (s.reg b)).after s) := by
  rw [exec, execCmov]
  cases isNonzero (s.reg c) with
  | true => rw [after_commitWrite]; rfl
  | false => rw [after_commitWrite_disabled]; rfl

/-- OUT offers the byte, or raises before anything is offered (R191, R216). -/
theorem exec_out_eq_blocks (s : State) (c : RegIdx) :
    exec (.out c) s = .next (CycleEnd.after s
      (if isAboveByte (s.reg c) then .fatal (.outputOutOfRange (s.reg c))
        else .commit { idleCommit s with outByte := some (lowByte (s.reg c)) })) := by
  simp only [exec, execOut]
  split_ifs
  · rfl
  · exact congrArg _ (commitEdge_outByte s _).symm

/-- The Standard layout: the operation of each opcode of R103, CMOV (0) to LOADP (12), is what the control
unit makes of the blocks for that opcode. -/
theorem exec_standardInstr_eq_blocks (w : Word) (s : State) {d : DecoderOut} (hd : d.isLoadValue = false)
    (hop : d.op.toNat ≤ 12) :
    exec (standardInstr w d.op d.a d.b d.c) s = .next ((blockExecute s d).after s) := by
  unfold standardInstr blockExecute
  rw [hd, if_neg Bool.false_ne_true]
  generalize d.op.toNat = op at hop
  match op, hop with
  | 0, _ => exact exec_cmov_eq_blocks s d.a d.b d.c
  | 1, _ =>
    exact settle_eq_commitIndexer (indexerBlock_read ..)
      (fun r => { idleCommit s with we := true, wa := d.a, wd := r.rdata, mem := r.mem })
      fun v => commitEdge_write s d.a v s.mem s.input
  | 2, _ =>
    exact settle_eq_commitIndexer (indexerBlock_write ..) (fun r => { idleCommit s with mem := r.mem })
      fun m => commitEdge_idle s m
  | 3, _ => exact congrArg _ (after_commitAlu rfl).symm
  | 4, _ => exact congrArg _ (after_commitAlu rfl).symm
  | 5, _ => exact exec_div_eq_blocks s d
  | 6, _ => exact congrArg _ (after_commitAlu rfl).symm
  | 7, _ => exact congrArg _ (commitEdge_halt s).symm
  | 8, _ =>
    exact settle_eq_commitIndexer (indexerBlock_map ..)
      (fun r => { idleCommit s with we := true, wa := d.b, wd := r.rdata, mem := r.mem })
      fun r => commitEdge_write s d.b (BitVec.ofNat 32 r.2) r.1 s.input
  | 9, _ =>
    exact settle_eq_commitIndexer (indexerBlock_unmap ..) (fun r => { idleCommit s with mem := r.mem })
      fun m => commitEdge_idle s m
  | 10, _ => exact exec_out_eq_blocks s d.c
  | 11, _ =>
    simp only [exec, execIn]
    cases s.input.take with
    | byte b rest => exact congrArg _ (commitEdge_write s d.c (byteWord b) s.mem rest).symm
    | endOfStream => exact congrArg _ (after_commitWrite s d.c endOfStreamWord).symm
    | notArrived => rfl
  | 12, _ =>
    exact settle_eq_commitIndexer (indexerBlock_replace0 ..)
      (fun r => { idleCommit s with loadPc := true, newPc := s.reg d.c, mem := r.mem })
      fun m => commitEdge_loadPc s (s.reg d.c) m

/-! ## One instruction through the blocks (R201, R217, R219) -/

/-- What the control unit does with the Word fetched: InvalidOpcode, or execute and commit. -/
def blockDispatch (s : State) (w : Word) : State :=
  if (decoderBlock w).invalid then s.raise (.invalidOpcode s.pc w)
  else (blockExecute s (decoderBlock w)).after s

theorem blockDispatch_of_valid {s : State} {w : Word} (h : w.toNat / 2 ^ 28 ≤ 13) :
    blockDispatch s w = (blockExecute s (decoderBlock w)).after s :=
  if_neg (by rw [decoderBlock_invalid_iff]; omega)

theorem blockDispatch_of_invalid {s : State} {w : Word} (h : 14 ≤ w.toNat / 2 ^ 28) :
    blockDispatch s w = s.raise (.invalidOpcode s.pc w) :=
  if_pos (decoderBlock_invalid_iff.mpr h)

/-- The LoadValue layout: `zext_32(value)` goes to the register file (R209). -/
theorem after_blockExecute_loadValue {s : State} {d : DecoderOut} (hd : d.isLoadValue = true) :
    (blockExecute s d).after s = s.retireReg d.reg (immWord d.value) := by
  rw [blockExecute, if_pos hd]
  exact after_commitWrite s d.reg (immWord d.value)

/-- Any Word: decoding and dispatching it is what the blocks do with it. -/
theorem exec_decode_eq_blocks (s : State) (w : Word) :
    exec (decode w) s = .next (blockDispatch s w) := by
  obtain ⟨h, hdec⟩ | ⟨h, hdec⟩ | ⟨h, hdec⟩ | ⟨h, hdec⟩ := decode_cases w <;> rw [hdec]
  · have hd : (decoderBlock w).isLoadValue = false := by
      rw [← Bool.not_eq_true, decoderBlock_isLoadValue_iff]
      omega
    rw [blockDispatch_of_valid (by omega)]
    exact exec_standardInstr_eq_blocks w s hd ((decoderBlock_op_toNat w).trans_le h)
  · rw [blockDispatch_of_valid h.le, after_blockExecute_loadValue (decoderBlock_isLoadValue_iff.mpr h)]
    rfl
  · rw [blockDispatch_of_invalid h.ge]
    rfl
  · rw [blockDispatch_of_invalid (by omega)]
    rfl

/-- `len0` holds the whole length of segment 0, so `pc_oob` is the PC check (R29, R121, R210). -/
theorem State.Inv.pcOob_eq {s : State} (hs : s.Inv) :
    pcOob s.pc (BitVec.ofNat 32 (s.mem.lenOf 0)) = s.pcOutside := by
  have hlen : s.mem.lenOf 0 < 2 ^ 32 := by
    cases hg : s.mem.find 0 with
    | none =>
      rw [Memory.lenOf, hg]
      exact Nat.two_pow_pos 32
    | some g => exact lenOf_of_find hg ▸ hs.memory.find_len_lt hg
  rw [pcOob, BitVec.toNat_ofNat, Nat.mod_eq_of_lt hlen, State.pcOutside]

/-- A pc inside segment 0: the indexer's FETCH delivers the Word the step fetches. -/
theorem load_fetchWord {s : State} (h : s.pcOutside = false) : s.mem.load 0 s.pc = .ok s.fetchWord := by
  obtain ⟨g, hg, ho⟩ := find_of_lt_lenOf (Nat.not_le.mp (of_decide_eq_false h))
  have hpeek : s.mem.peek 0 s.pc = some (g.read s.pc.toNat) := peek_eq_some.mpr ⟨g, hg, ho, rfl⟩
  rw [load_ok, (fetch_of_peek hpeek).2, hpeek]

theorem blockStep_of_pcOutside {s : State} (hs : s.Inv) (h : s.pcOutside = true) :
    blockStep s = s.raise (.pcOutOfBounds s.pc) :=
  if_pos (hs.pcOob_eq.trans h)

theorem blockStep_of_pcInside {s : State} (hs : s.Inv) (h : s.pcOutside = false) :
    blockStep s = blockDispatch s s.fetchWord := by
  have hpc : ¬ pcOob s.pc (indexerAnswer s.mem Config.undrivenData).len0 = true :=
    Bool.eq_false_iff.mp (hs.pcOob_eq.trans h)
  rw [blockStep, if_neg hpc, indexerBlock_fetch, load_fetchWord h]
  rfl

/-- Settles O56: the PC checks agree, and so do the two dispatches of the Word fetched. -/
theorem blocksComposeToTheStep : Obligations.BlocksComposeToTheStep := by
  intro s hs hrun
  cases hpc : s.pcOutside with
  | true => rw [step_of_pcOutside hrun hpc, blockStep_of_pcOutside hs hpc]
  | false =>
    rw [step_of_pcInside hrun hpc, blockStep_of_pcInside hs hpc]
    exact exec_decode_eq_blocks s s.fetchWord

/-! ## Status outputs (R218) -/

/-- Every cause code fits the four wires of `cause` (R241). -/
theorem Cause.code_lt (c : Cause) : c.code < 2 ^ 4 := by
  cases c <;> simp [Cause.code]

/-- A cause records at most two values (R241). -/
theorem Cause.info_length_le (c : Cause) : c.info.length ≤ 2 := by
  cases c with
  | unmappedSegment s o => cases o <;> simp [Cause.info]
  | _ => simp [Cause.info]

/-- A recorded value below 2^32 is carried whole. -/
theorem Cause.infoWord_toNat {c : Cause} {k v : Nat} (h : c.info[k]? = some v) (hv : v < 2 ^ 32) :
    (c.infoWord k).toNat = v := by
  rw [Cause.infoWord, h]
  exact Nat.mod_eq_of_lt hv

theorem toNat_append_word (x y : Word) : (x ++ y).toNat = x.toNat * 2 ^ 32 + y.toNat := by
  rw [BitVec.toNat_append, ← Nat.shiftLeft_add_eq_or_of_lt y.isLt, Nat.shiftLeft_eq]

theorem toNat_append_div (x y : Word) : (x ++ y).toNat / 2 ^ 32 = x.toNat := by
  have hy := y.isLt
  rw [toNat_append_word]
  omega

theorem toNat_append_mod (x y : Word) : (x ++ y).toNat % 2 ^ 32 = y.toNat := by
  have hy := y.isLt
  rw [toNat_append_word]
  omega

/-- The half of `fault_info` that `Config.infoFirstHigh` gives the first value carries it (log 22). -/
theorem Cause.faultInfo_first (c : Cause) :
    (if Config.infoFirstHigh c.code then c.faultInfo.toNat / 2 ^ 32 else c.faultInfo.toNat % 2 ^ 32) =
      (c.infoWord 0).toNat := by
  rw [Cause.faultInfo]
  split_ifs
  · exact toNat_append_div _ _
  · exact toNat_append_mod _ _

/-- The other half carries the second value. -/
theorem Cause.faultInfo_second (c : Cause) :
    (if Config.infoFirstHigh c.code then c.faultInfo.toNat % 2 ^ 32 else c.faultInfo.toNat / 2 ^ 32) =
      (c.infoWord 1).toNat := by
  rw [Cause.faultInfo]
  split_ifs
  · exact toNat_append_mod _ _
  · exact toNat_append_div _ _

theorem statusOutputs_faulted {s : State} {c : Cause} {p : Word} (h : s.status = .faulted c p) :
    s.statusOutputs = ⟨false, true, BitVec.ofNat 4 c.code, p, c.faultInfo⟩ := by
  rw [State.statusOutputs, h]

theorem statusOutputs_halted_iff (s : State) : s.statusOutputs.halted = true ↔ s.status = .halted := by
  cases h : s.status <;> simp [State.statusOutputs, h]

theorem statusOutputs_faulted_iff (s : State) :
    s.statusOutputs.faulted = true ↔ ∃ c p, s.status = .faulted c p := by
  cases h : s.status <;> simp [State.statusOutputs, h]

theorem statusOutputs_cause_of_not_faulted {s : State} (h : ∀ c p, s.status ≠ .faulted c p) :
    s.statusOutputs.cause = 0 := by
  cases hst : s.status with
  | running => rw [State.statusOutputs, hst]
  | halted => rw [State.statusOutputs, hst]
  | faulted c p => exact absurd hst (h c p)

/-- Settles O54: the outputs by run status, and the halves of `fault_info` in the order of
`Config.infoFirstHigh`. -/
theorem statusOutputsShowTheOutcome : Obligations.StatusOutputsShowTheOutcome := by
  refine ⟨statusOutputs_halted_iff, statusOutputs_faulted_iff, fun _ => statusOutputs_cause_of_not_faulted,
    fun s c p h => ?_, Config.infoFirstHigh, fun s c p h => ?_⟩
  · rw [statusOutputs_faulted h]
    exact ⟨Nat.mod_eq_of_lt c.code_lt, rfl⟩
  · rw [statusOutputs_faulted h]
    exact ⟨c.info_length_le, fun v hv hlt => c.faultInfo_first.trans (Cause.infoWord_toNat hv hlt),
      fun v hv hlt => c.faultInfo_second.trans (Cause.infoWord_toNat hv hlt)⟩

end Sys2Proof.Machine
end

section
/-!
PROOFS. The rules of 60_exceptions.md: the causes each instruction and each step can raise, and what the
exit status and the code of a cause tell.
-/

namespace Sys2Proof.Machine

/-! ## An instruction that ends `Faulted` has failed its check (R127, R250) -/

/-- A state with the run status of a `Running` one has not faulted. -/
theorem not_faulted_of_status_eq {s t : State} (hs : s.status = .running) (h : t.status = s.status)
    (c : Cause) (p : Word) : t.status ≠ .faulted c p := by
  rw [h, hs]
  nofun

/-- An instruction whose success keeps the run status has faulted by the check that failed. -/
theorem settle_faulted {α : Type} {s t : State} {r : Except Cause α} {k : α → State} {c : Cause} {p : Word}
    (hs : s.status = .running) (h : settle s r k = .next t) (hk : ∀ x, (k x).status = s.status)
    (ht : t.status = .faulted c p) : r = .error c := by
  obtain ⟨x, -, rfl⟩ | ⟨c', hr, rfl⟩ := settle_next.mp h
  · exact absurd ht (not_faulted_of_status_eq hs (hk x) c p)
  · cases ht
    exact hr

/-- A `Running` instruction that ends `Faulted` has raised a cause of its row of the matrix. -/
theorem mayRaise_of_exec_faulted {i : Instr} {s t : State} {c : Cause} {p : Word}
    (hs : s.status = .running) (h : exec i s = .next t) (ht : t.status = .faulted c p) :
    mayRaise i c = true := by
  have kept (hst : t.status = s.status) : mayRaise i c = true :=
    absurd ht (not_faulted_of_status_eq hs hst c p)
  cases i with
  | cmov x y z =>
    by_cases hz : s.reg z = 0
    · rw [exec_cmov_of_zero hz] at h; cases h; exact kept rfl
    · rw [exec_cmov_of_nonzero hz] at h; cases h; exact kept rfl
  | sload x y z =>
    obtain ⟨-, rfl⟩ | ⟨-, -, -, rfl⟩ := load_error.mp (settle_faulted hs h (fun _ => rfl) ht) <;> rfl
  | sstore x y z =>
    obtain ⟨-, rfl⟩ | ⟨-, -, -, rfl⟩ := store_error.mp (settle_faulted hs h (fun _ => rfl) ht) <;> rfl
  | add x y z => cases h; exact kept rfl
  | mul x y z => cases h; exact kept rfl
  | div x y z =>
    by_cases hz : s.reg z = 0
    · rw [exec_div_of_zero hz] at h; cases h; cases ht; rfl
    · rw [exec_div_of_nonzero hz] at h; cases h; exact kept rfl
  | nand x y z => cases h; exact kept rfl
  | halt => cases h; cases ht
  | map y z =>
    obtain ⟨rfl, -⟩ := map_error.mp (settle_faulted hs h (fun _ => rfl) ht)
    rfl
  | unmap z =>
    obtain ⟨-, rfl⟩ | ⟨-, -, rfl⟩ := unmap_error.mp (settle_faulted hs h (fun _ => rfl) ht) <;> rfl
  | out z =>
    obtain hle | hgt := le_or_gt (s.reg z).toNat 255
    · rw [exec_out_of_le hle] at h; cases h; exact kept rfl
    · rw [exec_out_of_gt hgt] at h; cases h; cases ht; rfl
  | inp z => exact kept (exec_inp_status h)
  | loadp y z =>
    obtain ⟨-, ⟨-, rfl⟩ | ⟨-, -, -, rfl⟩⟩ :=
      replaceZero_error.mp (settle_faulted hs h (fun _ => rfl) ht) <;> rfl
  | loadv r v => cases h; exact kept rfl
  | invalid14 w => cases h; cases ht; rfl
  | invalid15 w => cases h; cases ht; rfl

/-- Settles O16: before dispatch a step has only the PC check, and then it is the instruction fetched. -/
theorem faultMatrix : Obligations.FaultMatrix := by
  refine ⟨fun i s t c p => mayRaise_of_exec_faulted, fun s t c p h ht => ?_⟩
  obtain ⟨hs, ⟨-, rfl⟩ | ⟨-, hexec⟩⟩ := step_next h
  · cases ht
    exact .inl ⟨s.pc, rfl⟩
  · exact .inr (mayRaise_of_exec_faulted hs hexec ht)

/-! ## The exit status (R257) and the cause codes (R241) -/

/-- No cause has the code 0, which is left for `Halted`. -/
theorem Cause.code_pos (c : Cause) : 0 < c.code := by
  cases c <;> exact Nat.succ_pos _

theorem RunStatus.exitStatus_eq_zero_iff (r : RunStatus) : r.exitStatus = some 0 ↔ r = .halted := by
  cases r with
  | running => simp [RunStatus.exitStatus]
  | halted => simp [RunStatus.exitStatus]
  | faulted c p => simp [RunStatus.exitStatus, c.code_pos.ne']

/-- The row of R241's table with this code, as the cause of that row with zeros for its recorded values. -/
def Cause.ofCode : Nat → Cause
  | 1 => .pcOutOfBounds 0
  | 2 => .invalidOpcode 0 0
  | 3 => .unmappedSegment 0 none
  | 4 => .offsetOutOfBounds 0 0
  | 5 => .divideByZero 0
  | 6 => .badUnmapZero
  | 7 => .badUnmapNotLive 0
  | 8 => .outputOutOfRange 0
  | 9 => .resourceExhausted 0
  | 10 => .loaderError
  | _ => .bitfieldRange 0 0

/-- The diagnostic and the class of a cause are those of its row, whatever values it records. -/
theorem Cause.ofCode_code (c : Cause) :
    (Cause.ofCode c.code).diagnostic = c.diagnostic ∧ (Cause.ofCode c.code).faultClass = c.faultClass := by
  cases c <;> exact ⟨rfl, rfl⟩

/-- Settles O53: codes are positive, and a code names one row of R241's table. -/
theorem exitStatusTellsTheOutcome : Obligations.ExitStatusTellsTheOutcome := by
  refine ⟨RunStatus.exitStatus_eq_zero_iff, fun _ _ => rfl, fun _ _ _ _ _ => ?codes, fun c d h => ?rows⟩
  case codes => exact ⟨rfl, rfl, rfl, rfl, rfl, rfl, rfl, rfl, rfl, rfl, rfl⟩
  case rows =>
    obtain ⟨hcdiag, hcclass⟩ := c.ofCode_code
    obtain ⟨hddiag, hdclass⟩ := d.ofCode_code
    rw [h] at hcdiag hcclass
    exact ⟨hcdiag.symm.trans hddiag, hcclass.symm.trans hdclass⟩

end Sys2Proof.Machine
end

section
/-!
PROOFS. The loader of 70_reset_and_hazards.md (R273): which images it reads, the Words it reads from them,
and the state that a rejected image leaves.
-/

namespace Sys2Proof.Machine

/-! ## The Words of an image (R60, R273) -/

theorem wordOfBytes_toNat (b0 b1 b2 b3 : Byte) :
    (wordOfBytes b0 b1 b2 b3).toNat =
      b0.toNat * 2 ^ 24 + b1.toNat * 2 ^ 16 + b2.toNat * 2 ^ 8 + b3.toNat := by
  rw [wordOfBytes, BitVec.toNat_ofNat, Nat.mod_eq_of_lt (by omega)]

@[simp] theorem imageWords_nil : imageWords [] = some [] := rfl

@[simp] theorem imageWords_cons (b0 b1 b2 b3 : Byte) (rest : List Byte) :
    imageWords (b0 :: b1 :: b2 :: b3 :: rest) = (imageWords rest).map (wordOfBytes b0 b1 b2 b3 :: ·) := rfl

/-- An image without a partial trailing chunk has Words. -/
theorem exists_imageWords (image : List Byte) (h : image.length % 4 = 0) :
    ∃ ws, imageWords image = some ws := by
  induction image using imageWords.induct with
  | case1 => exact ⟨[], imageWords_nil⟩
  | case2 b0 b1 b2 b3 rest ih =>
    obtain ⟨ws, hws⟩ := ih (by simp only [List.length_cons] at h; omega)
    exact ⟨_, by rw [imageWords_cons, hws]; rfl⟩
  | case3 image hnil hcons =>
    match image with
    | [] => exact absurd rfl hnil
    | [_] | [_, _] | [_, _, _] => simp at h
    | b0 :: b1 :: b2 :: b3 :: rest => exact absurd rfl (hcons b0 b1 b2 b3 rest)

/-- A Word has four bytes of the image, and no byte is left over. -/
theorem length_of_imageWords {image : List Byte} {ws : List Word} (h : imageWords image = some ws) :
    image.length = 4 * ws.length := by
  induction image using imageWords.induct generalizing ws with
  | case1 => cases h; rfl
  | case2 b0 b1 b2 b3 rest ih =>
    obtain ⟨vs, hvs, rfl⟩ := Option.map_eq_some_iff.mp h
    simp [ih hvs, Nat.mul_succ]
  | case3 image hnil hcons => simp [imageWords] at h

/-- Word `k` is made of the bytes from `4 * k` on. -/
theorem getElem_of_imageWords {image : List Byte} {ws : List Word} (h : imageWords image = some ws)
    {k : Nat} (hk : k < ws.length) {b0 b1 b2 b3 : Byte} (h0 : image[4 * k]? = some b0)
    (h1 : image[4 * k + 1]? = some b1) (h2 : image[4 * k + 2]? = some b2)
    (h3 : image[4 * k + 3]? = some b3) : ws[k] = wordOfBytes b0 b1 b2 b3 := by
  induction image using imageWords.induct generalizing ws k with
  | case1 => cases h0
  | case2 c0 c1 c2 c3 rest ih =>
    obtain ⟨vs, hvs, rfl⟩ := Option.map_eq_some_iff.mp h
    cases k with
    | zero => cases h0; cases h1; cases h2; cases h3; rfl
    | succ k => exact ih hvs (Nat.lt_of_succ_lt_succ hk) h0 h1 h2 h3
  | case3 image hnil hcons => simp [imageWords] at h

/-! ## Boot from an image that is read, and from one that is rejected (R249, R273) -/

theorem boot_of_imageWords {cfg : Params} {image : List Byte} {ws : List Word}
    (h : imageWords image = some ws) (hl : ws.length ≤ cfg.imageWordsMax) (arrived : List Byte)
    (ended : Bool) : State.boot cfg image arrived ended = State.bootWords cfg ws arrived ended := by
  simp only [State.boot, h, if_pos hl]

theorem boot_of_rejected {cfg : Params} {image : List Byte}
    (h : ∀ ws, imageWords image = some ws → cfg.imageWordsMax < ws.length) (arrived : List Byte)
    (ended : Bool) : State.boot cfg image arrived ended =
      (State.bootWords cfg [] arrived ended).raise .loaderError := by
  cases hw : imageWords image with
  | none => simp only [State.boot, hw]
  | some ws => simp only [State.boot, hw, if_neg (Nat.not_le.mpr (h ws hw))]

/-- Settles O52: the number of Words is a quarter of the number of bytes, so the two cases are those of
`boot_of_imageWords` and `boot_of_rejected`. -/
theorem loaderReadsBigEndianOrRejects : Obligations.LoaderReadsBigEndianOrRejects := by
  refine fun cfg image arrived ended => ⟨fun hchunks hmax => ?read, fun hbad => ?rejected⟩
  case read =>
    obtain ⟨ws, hws⟩ := exists_imageWords image hchunks
    have hlen := length_of_imageWords hws
    refine ⟨ws, boot_of_imageWords hws (by omega) arrived ended, by omega,
      fun k hk b0 b1 b2 b3 h0 h1 h2 h3 => ?_⟩
    rw [getElem_of_imageWords hws hk h0 h1 h2 h3, wordOfBytes_toNat]
  case rejected =>
    have hlong : ∀ ws, imageWords image = some ws → cfg.imageWordsMax < ws.length := fun ws hws => by
      have hlen := length_of_imageWords hws
      omega
    rw [boot_of_rejected hlong arrived ended]
    exact ⟨⟨_, raise_status _ _, step_faulted (raise_status _ _)⟩, rfl⟩

end Sys2Proof.Machine
end
